-- ==== Sys2Proof/Word.lean ====
section
/-! DEFINITION. The word types of the memory block (00_scope.md R9, R12): everything is unsigned; a byte is 8 bits and a
word, an address and a request's data field are 32 bits. -/

namespace Sys2Proof

/-- A 32-bit word or a 32-bit address (00_scope.md R6 `ADDR_W`, `WORD_W`; R9). -/
abbrev Word := BitVec 32

/-- An 8-bit byte (00_scope.md R12). -/
abbrev Byte := BitVec 8

/-- The number of a 4 KiB page: bits 31:12 of a guest address (20_memory.md R59). -/
abbrev Vpn := BitVec 20

/-- The outcome of the host's file open that LOADIMG carries (30_encoding.md R70): `none` is the spec's `Fail`, `some b`
the byte sequence `b`. -/
abbrev Image := Option (List Byte)

end Sys2Proof
end

