-- ==== Sys2Proof/Syntax.lean ====
section
/-! DEFINITION. The requests of the block as syntax: one constructor per row of spec/opcode_table.json, with the operands
of 30_encoding.md R70 that the row uses. An operand is the whole field of the request; a narrower use of `wdata` is the
operation's own rule (30_encoding.md R77). -/

namespace Sys2Proof

/-- The fifteen operations of 30_encoding.md R73 to R76. -/
inductive Instr where
  /-- RD8, `cmd` 0x00 (41_router.md R105). -/
  | rd8 (addr : Word)
  /-- RD16, `cmd` 0x01 (41_router.md R104). -/
  | rd16 (addr : Word)
  /-- RD32, `cmd` 0x02 (41_router.md R103). -/
  | rd32 (addr : Word)
  /-- WR8, `cmd` 0x04 (41_router.md R108). -/
  | wr8 (addr wdata : Word)
  /-- WR16, `cmd` 0x05 (41_router.md R107). -/
  | wr16 (addr wdata : Word)
  /-- WR32, `cmd` 0x06 (41_router.md R106). -/
  | wr32 (addr wdata : Word)
  /-- XLATE, `cmd` 0x10 (42_translate.md R120); `addr` is a guest address. -/
  | xlate (addr : Word)
  /-- CRDD, `cmd` 0x20 (43_cache.md R134). -/
  | crdd (addr : Word)
  /-- CRDI, `cmd` 0x21 (43_cache.md R135). -/
  | crdi (addr : Word)
  /-- CWRD, `cmd` 0x24 (43_cache.md R138). -/
  | cwrd (addr wdata : Word)
  /-- CWRI, `cmd` 0x25 (43_cache.md R139). -/
  | cwri (addr wdata : Word)
  /-- LOADIMG, `cmd` 0x30 (44_host_control.md R150). -/
  | loadimg (image : Image)
  /-- LOGEN, `cmd` 0x31 (44_host_control.md R153). -/
  | logen (sinkOk : Bool)
  /-- LOGDIS, `cmd` 0x32 (44_host_control.md R154). -/
  | logdis
  /-- DUMP, `cmd` 0x33 (44_host_control.md R155). -/
  | dump (addr len : Word)
deriving DecidableEq, Repr

end Sys2Proof
end

