-- ==== Sys2Proof/Machine/Records.lean ====
section
/-! DEFINITION. The records that cross the block's ports (00_scope.md R2): the request and the response (30_encoding.md
R70, R71), the log record (R84, 60_exceptions.md R177), the page-mapping entry (20_memory.md R60), and the elements of the
one input sequence in which requests and page-mapping changes are serialised (00_scope.md R5, 20_memory.md R68). -/

namespace Sys2Proof.Machine

/-- A request as it stands at the request port (30_encoding.md R70). Every field is present; one the operation does not
use is ignored. -/
structure Request where
  /-- selects the operation -/
  cmd : Byte
  /-- guest address (XLATE) or physical address -/
  addr : Word := 0
  /-- data to write -/
  wdata : Word := 0
  /-- byte length of a DUMP -/
  len : Word := 0
  /-- `none` is `Fail` -/
  image : Image := none
  /-- 1 if the host opened the log sink -/
  sinkOk : Bool := false
deriving DecidableEq, Repr

/-- The four `status` values (30_encoding.md R81); `Status.code` gives their numbers. -/
inductive Status where
  | ok
  | imageLoadError
  | logSinkError
  | badCommand
deriving DecidableEq, Repr

/-- A response (30_encoding.md R71), with the defaults of that rule. -/
structure Response where
  status : Status := .ok
  rdata : Word := 0
  dump : List (Word × Word) := []
deriving DecidableEq, Repr

/-- The operation of a log record (60_exceptions.md R177). Code 3 of R84 is unused and has no constructor. -/
inductive LogOp where
  | read
  | write
  | translationMiss
deriving DecidableEq, Repr

/-- A log record (60_exceptions.md R177, widths of 30_encoding.md R84). -/
structure LogRecord where
  op : LogOp
  addr : Word
  size : Byte
deriving DecidableEq, Repr

/-- A present entry of the page mapping (20_memory.md R60). -/
structure PageEntry where
  base : Word
  valid : Bool
deriving DecidableEq, Repr

/-- The pseudo-requests of 30_encoding.md R83. -/
inductive Pseudo where
  | vrd8 (va : Word)
  | vrd16 (va : Word)
  | vrd32 (va : Word)
  | vwr8 (va d : Word)
  | vwr16 (va d : Word)
  | vwr32 (va d : Word)
  | vcrdd (va : Word)
  | vcrdi (va : Word)
  | vcwrd (va d : Word)
  | vcwri (va d : Word)
deriving DecidableEq, Repr

/-- One element of the serialised input sequence: a request, a pseudo-request (two requests back to back, R83), or the
MMU-setup actor's change of one page's entry (10_state.md R30; `none` makes the page absent). -/
inductive Event where
  | request (r : Request)
  | pseudo (p : Pseudo)
  | setPage (vpn : Vpn) (entry : Option PageEntry)
deriving DecidableEq, Repr

end Sys2Proof.Machine
end

