-- ==== Sys2Proof/WellFormed.lean ====
section
/-! DEFINITION. What is checked of the block's records. The operands of an `Instr` need no check: each field of
30_encoding.md R70 admits every value of its width, and the width is in its type. What can be ill formed is a request
whose `cmd` selects no operation (R78, R80) and a log record whose size does not fit its operation (R84). -/

namespace Sys2Proof

open Machine

/-- The fifteen defined `cmd` values (30_encoding.md R73 to R76). -/
def definedCmds : List Byte :=
  [0x00, 0x01, 0x02, 0x04, 0x05, 0x06, 0x10, 0x20, 0x21, 0x24, 0x25, 0x30, 0x31, 0x32, 0x33]

/-- A request whose `cmd` is one of the fifteen (30_encoding.md R80). -/
def Machine.Request.wellFormed (r : Request) : Bool := definedCmds.contains r.cmd

/-- A log record whose size is one R84 admits for its operation: 1, 2 or 4 for read and write, 0 for translation-miss. -/
def Machine.LogRecord.wellFormed (r : LogRecord) : Bool :=
  match r.op with
  | .read => r.size == 1 || r.size == 2 || r.size == 4
  | .write => r.size == 1 || r.size == 2 || r.size == 4
  | .translationMiss => r.size == 0

end Sys2Proof
end

