-- ==== Sys2Proof/Decode.lean ====
section
/-! DEFINITION. Decoding a request (30_encoding.md R72 to R80), the encoder written from the same tables, and the codes of
the response status (R81) and of a log record (R84). -/

namespace Sys2Proof

open Machine

/-- Why a request is rejected: its `cmd` is reserved (30_encoding.md R78; 60_exceptions.md R171 condition 5,
`BadCommand`). -/
inductive Reject where
  | badCommand (cmd : Byte)
deriving DecidableEq, Repr

/-- Exact match of all eight bits of `cmd` (30_encoding.md R80); the operands are the request's own fields, unchanged
(R77), and a field the operation does not use is dropped (R70). -/
def decode (r : Request) : Except Reject Instr :=
  match r.cmd with
  | 0x00#8 => .ok (.rd8 r.addr)
  | 0x01#8 => .ok (.rd16 r.addr)
  | 0x02#8 => .ok (.rd32 r.addr)
  | 0x04#8 => .ok (.wr8 r.addr r.wdata)
  | 0x05#8 => .ok (.wr16 r.addr r.wdata)
  | 0x06#8 => .ok (.wr32 r.addr r.wdata)
  | 0x10#8 => .ok (.xlate r.addr)
  | 0x20#8 => .ok (.crdd r.addr)
  | 0x21#8 => .ok (.crdi r.addr)
  | 0x24#8 => .ok (.cwrd r.addr r.wdata)
  | 0x25#8 => .ok (.cwri r.addr r.wdata)
  | 0x30#8 => .ok (.loadimg r.image)
  | 0x31#8 => .ok (.logen r.sinkOk)
  | 0x32#8 => .ok .logdis
  | 0x33#8 => .ok (.dump r.addr r.len)
  | c => .error (.badCommand c)

/-- The request that carries an instruction (30_encoding.md R73 to R76): its `cmd`, its operands in their fields, and
every field it does not use at the request record's default. -/
def encode : Instr → Request
  | .rd8 a => { cmd := 0x00, addr := a }
  | .rd16 a => { cmd := 0x01, addr := a }
  | .rd32 a => { cmd := 0x02, addr := a }
  | .wr8 a d => { cmd := 0x04, addr := a, wdata := d }
  | .wr16 a d => { cmd := 0x05, addr := a, wdata := d }
  | .wr32 a d => { cmd := 0x06, addr := a, wdata := d }
  | .xlate a => { cmd := 0x10, addr := a }
  | .crdd a => { cmd := 0x20, addr := a }
  | .crdi a => { cmd := 0x21, addr := a }
  | .cwrd a d => { cmd := 0x24, addr := a, wdata := d }
  | .cwri a d => { cmd := 0x25, addr := a, wdata := d }
  | .loadimg img => { cmd := 0x30, image := img }
  | .logen ok => { cmd := 0x31, sinkOk := ok }
  | .logdis => { cmd := 0x32 }
  | .dump a l => { cmd := 0x33, addr := a, len := l }

/-- A request written as one number, bit 0 the least significant bit of `cmd`. DESIGN CHOICE (log entry 9): the spec gives
the request as a record and no bit order beyond the `cmd` byte; here the fixed-width fields follow `cmd` in the order of
R70's table (`addr` at 8, `wdata` at 40, `len` at 72, `sink_ok` at 104), and `image` is `Fail`. -/
def Machine.Request.ofBits (nbits w : Nat) : Request :=
  let b := w % 2 ^ nbits
  { cmd := BitVec.ofNat 8 b
    addr := BitVec.ofNat 32 (b >>> 8)
    wdata := BitVec.ofNat 32 (b >>> 40)
    len := BitVec.ofNat 32 (b >>> 72)
    image := none
    sinkOk := (b >>> 104) % 2 == 1 }

/-- The instruction the decoder reads from a request whose bits are `w` (numbered as spec/opcode_table.json numbers
them), `none` where it rejects it. -/
def decodeTableWord (nbits w : Nat) : Option Instr :=
  match decode (Request.ofBits nbits w) with
  | .ok i => some i
  | .error _ => none

/-- The number of a status (30_encoding.md R81). -/
def Machine.Status.code : Status → BitVec 2
  | .ok => 0
  | .imageLoadError => 1
  | .logSinkError => 2
  | .badCommand => 3

/-- The status a number stands for (30_encoding.md R81): every 2-bit value is one. -/
def Machine.Status.ofCode (c : BitVec 2) : Status :=
  match c with
  | 0#2 => .ok
  | 1#2 => .imageLoadError
  | 2#2 => .logSinkError
  | 3#2 => .badCommand

/-- The code of a log operation (30_encoding.md R84). -/
def Machine.LogOp.code : LogOp → BitVec 2
  | .read => 0
  | .write => 1
  | .translationMiss => 2

/-- The operation a 2-bit code stands for; 3 is unused and a log reader rejects it (30_encoding.md R84,
93_implementation_defined.md §2). -/
def Machine.LogOp.ofCode (c : BitVec 2) : Option LogOp :=
  match c with
  | 0#2 => some .read
  | 1#2 => some .write
  | 2#2 => some .translationMiss
  | 3#2 => none

/-- The three fields a log record is encoded as (30_encoding.md R84). -/
def Machine.LogRecord.encode (r : LogRecord) : BitVec 2 × BitVec 32 × BitVec 8 := (LogOp.code r.op, r.addr, r.size)

/-- Reading an encoded log record back: the unused operation code and a size R84 does not admit are rejected. -/
def Machine.LogRecord.decode (f : BitVec 2 × BitVec 32 × BitVec 8) : Option LogRecord :=
  match LogOp.ofCode f.1 with
  | none => none
  | some op =>
    let r : LogRecord := { op := op, addr := f.2.1, size := f.2.2 }
    if LogRecord.wellFormed r then some r else none

end Sys2Proof
end

