-- ==== Sys2Proof/Config.lean ====
section
/-! DEFINITION. What is fixed for the life of a block (00_scope.md R6, R7; 10_state.md R24, R34): the geometry, which the
source fixes, and the three open parameters. The parameters' values are held in `State.params`, which no step writes, so
that a statement about every state is a statement about every choice of the parameters (log entry 5). -/

namespace Sys2Proof.Config

/-- 00_scope.md R6 `RAM_BASE`. -/
def ramBase : Nat := 0x00000000
/-- 00_scope.md R6 `RAM_SIZE`, 32 MiB. -/
def ramSize : Nat := 0x02000000
/-- 00_scope.md R6 `ROM_BASE`. -/
def romBase : Nat := 0xBFC00000
/-- 00_scope.md R6 `ROM_SIZE`, 4 MiB. -/
def romSize : Nat := 0x00400000
/-- 00_scope.md R6 `SPAD_BASE`. -/
def spadBase : Nat := 0x70000000
/-- 00_scope.md R6 `SPAD_SIZE`, 16 KiB. -/
def spadSize : Nat := 0x00004000

/-- `WRITE_POLICY` (00_scope.md R6, 43_cache.md R137). -/
inductive WritePolicy where
  | cacheOnly
  | writeThrough
deriving DecidableEq, Repr

/-- `HALF_MASK` (00_scope.md R6, 20_memory.md R52): the two values the spec admits. -/
inductive HalfMask where
  | mask2
  | mask3
deriving DecidableEq, Repr

/-- The open parameters of 00_scope.md R6. -/
structure Params where
  /-- `WRITE_POLICY` -/
  writePolicy : WritePolicy
  /-- `HALF_MASK` -/
  halfMask : HalfMask
  /-- `DUMP_LOGS` -/
  dumpLogs : Bool
deriving DecidableEq, Repr

/-- The defaults of 00_scope.md R6. -/
def Params.default : Params := { writePolicy := .cacheOnly, halfMask := .mask2, dumpLogs := false }

end Sys2Proof.Config
end

