-- ==== Sys2Proof/Machine/Operands.lean ====
section
/-! DEFINITION. The operand forms: regions (20_memory.md R41 to R44), alignment and lanes (R50 to R52, 41_router.md R102),
byte order (R47), pages (R59) and the cache's address decomposition (43_cache.md R130). All are functions of the operands
alone. -/

namespace Sys2Proof.Machine

/-- The regions a physical address can be in (20_memory.md R43); `outOfRange` is the spec's `NONE`. -/
inductive Region where
  | ram
  | rom
  | spad
  | outOfRange
deriving DecidableEq, Repr

/-- `Region(pa)` (20_memory.md R43): RAM, then ROM, then scratchpad, on unbounded integers (00_scope.md R9). -/
def region (pa : Word) : Region :=
  if Config.ramBase ≤ pa.toNat ∧ pa.toNat < Config.ramBase + Config.ramSize then .ram
  else if Config.romBase ≤ pa.toNat ∧ pa.toNat < Config.romBase + Config.romSize then .rom
  else if Config.spadBase ≤ pa.toNat ∧ pa.toNat < Config.spadBase + Config.spadSize then .spad
  else .outOfRange

/-- `pa & ~0x3` (20_memory.md R51). -/
def alignWord (pa : Word) : Word := pa &&& ~~~0x3#32

/-- The byte mask of 20_memory.md R50. -/
def byteMask : Word := 0x3#32

/-- The value of `HALF_MASK` (00_scope.md R6). -/
def halfMaskWord : Config.HalfMask → Word
  | .mask2 => 0x2#32
  | .mask3 => 0x3#32

/-- `s = (pa & mask) * 8` (20_memory.md R50). -/
def laneShift (mask pa : Word) : Nat := (pa &&& mask).toNat * 8

/-- `2^n - 1` as a 32-bit word (41_router.md R102). -/
def laneOnes (n : Nat) : Word := BitVec.ofNat 32 (2 ^ n - 1)

/-- `Extract(w, s, n)` (41_router.md R102). -/
def extractLane (w : Word) (s n : Nat) : Word := (w >>> s) &&& laneOnes n

/-- `Inject(w, s, n, v)` (41_router.md R102). -/
def injectLane (w : Word) (s n : Nat) (v : Word) : Word :=
  (w &&& ~~~(laneOnes n <<< s)) ||| ((v &&& laneOnes n) <<< s)

/-- Four bytes as a word, the first the least significant (20_memory.md R47, R48; 44_host_control.md R151). -/
def pack4 (b0 b1 b2 b3 : Byte) : Word :=
  b0.setWidth 32 ||| b1.setWidth 32 <<< 8 ||| b2.setWidth 32 <<< 16 ||| b3.setWidth 32 <<< 24

/-- Byte `k` of a word: bits `8k+7 : 8k` (20_memory.md R47). -/
def byteOf (w : Word) (k : Nat) : Byte := w.extractLsb' (8 * k) 8

/-- `vpn = va >> 12`, 20 bits (20_memory.md R59). -/
def vpnOf (va : Word) : Vpn := va.extractLsb' 12 20

/-- `va & 0xFFF` (20_memory.md R59). -/
def pageOffset (va : Word) : Word := va &&& 0xFFF#32

/-- `idx = pa[11:5]` (43_cache.md R130). -/
def cacheIdx (pa : Word) : BitVec 7 := pa.extractLsb' 5 7

/-- `tag = pa[31:12]` (43_cache.md R130). -/
def cacheTag (pa : Word) : BitVec 20 := pa.extractLsb' 12 20

/-- `off = pa[4:2]` (43_cache.md R130). -/
def cacheOff (pa : Word) : BitVec 3 := pa.extractLsb' 2 3

/-- `base = pa & ~0x1F` (43_cache.md R130). -/
def lineBase (pa : Word) : Word := pa &&& ~~~0x1F#32

/-- The word addresses of a line, `base + 4*k` for k = 0 to 7 in this order (43_cache.md R133). -/
def lineWords (pa : Word) : List Word :=
  [lineBase pa, lineBase pa + 4, lineBase pa + 8, lineBase pa + 12,
   lineBase pa + 16, lineBase pa + 20, lineBase pa + 24, lineBase pa + 28]

/-- How many words a dump of `len` bytes from `start` has (44_host_control.md R155): the words `w = lo, lo + 4, …` with
`w < hi`, where `lo = start & ~0x3` and `hi = min(start + len, 2^32)` are unbounded integers. -/
def dumpCount (start len : Word) : Nat :=
  let lo := (alignWord start).toNat
  let hi := min (start.toNat + len.toNat) (2 ^ 32)
  (hi - lo + 3) / 4

/-- The word addresses a dump visits, in order, as the pseudocode of 44_host_control.md R155 gives them. DESIGN CHOICE (log
entry 13): that rule's corner case "`len = 0` gives an empty dump" differs from its pseudocode when `start` is inside a
word; the pseudocode is followed. -/
def dumpWords (start len : Word) : List Word :=
  (List.range (dumpCount start len)).map fun i => BitVec.ofNat 32 ((alignWord start).toNat + 4 * i)

end Sys2Proof.Machine
end

