-- ==== Sys2Proof/Machine/State.lean ====
section
/-! DEFINITION. The state of the block as plain data (10_state.md R20), with its inputs, its outputs and its
configuration beside it (INVENTORY.md '## State'), the two stop reasons the host's interface asks for, and the state at
reset (70_reset_and_hazards.md R190, R191). -/

namespace Sys2Proof.Machine

/-- A store of bytes: (physical address, byte) cells, addresses strictly rising, no cell equal to what an unlisted
address reads as (`Memory.wf`). Log entry 1. -/
abbrev Memory := List Host.Cell

/-- The page mapping (10_state.md R30): (page number, entry) pairs, page numbers strictly rising; an unlisted page is
absent. Log entry 6. -/
abbrev PageMap := List (Nat × PageEntry)

/-- One cache line (10_state.md R25). -/
structure Line where
  tag : BitVec 20
  data : Vector Word 8
  valid : Bool
deriving DecidableEq, Repr

/-- One cache instance (10_state.md R25): 128 lines. -/
structure Cache where
  lines : Vector Line 128
deriving DecidableEq, Repr

/-- The block (10_state.md R20), its inputs, outputs and configuration. -/
structure State where
  /-- configuration (10_state.md R34); written by nothing -/
  params : Config.Params
  /-- the page mapping input (10_state.md R30) -/
  pageMap : PageMap
  /-- RAM (10_state.md R21) -/
  ram : Memory
  /-- ROM (10_state.md R22) -/
  rom : Memory
  /-- scratchpad (10_state.md R23) -/
  spad : Memory
  /-- instruction cache (10_state.md R26) -/
  icache : Cache
  /-- data cache (10_state.md R26) -/
  dcache : Cache
  /-- `log_enabled` (10_state.md R27) -/
  logEnabled : Bool
  /-- `log` (10_state.md R28), oldest first -/
  log : List LogRecord
  /-- `rom_loaded` (10_state.md R29) -/
  romLoaded : Bool
  /-- the part of the input sequence not yet taken, next first (10_state.md R32, 20_memory.md R68; log entry 2) -/
  inputs : List Event
  /-- the responses given so far, oldest first (30_encoding.md R71, 70_reset_and_hazards.md R207; log entry 4) -/
  responses : List Response
deriving DecidableEq, Repr

/-- Faults. There is none: "The block raises no exception, trap, abort, interrupt or bus error, on any request, address or
value" (60_exceptions.md R170), so the type has no constructor and nothing can raise one. Log entry 17. -/
inductive Fault where
deriving DecidableEq, Repr

/-- Refusals. -/
inductive Refusal where
  /-- Raised only by an arm of `exec` whose instruction has no meaning yet; no arm uses it in this model. Safe. -/
  | notModelled (mnemonic : String)
deriving DecidableEq, Repr

/-- A line at reset (10_state.md R25): invalid, tag and data zero (the spec's decision D23; log entry 12). -/
def Line.reset : Line := { tag := 0, data := Vector.replicate 8 0, valid := false }

/-- A cache at reset (70_reset_and_hazards.md R191). -/
def Cache.reset : Cache := { lines := Vector.replicate 128 Line.reset }

/-- The block at reset under given parameters and a given page mapping, both of which come from outside
(70_reset_and_hazards.md R192). -/
def State.resetWith (p : Config.Params) (m : PageMap) : State :=
  { params := p, pageMap := m
    ram := [], rom := [], spad := []
    icache := Cache.reset, dcache := Cache.reset
    logEnabled := false, log := [], romLoaded := false
    inputs := [], responses := [] }

/-- The block right after reset (70_reset_and_hazards.md R191), with the default parameters (00_scope.md R6) and every
page absent (DESIGN CHOICE, log entry 6). -/
def State.reset : State := State.resetWith Config.Params.default []

end Sys2Proof.Machine
end

