-- ==== Sys2Proof/Machine/Store.lean ====
section
/-! DEFINITION. Sparse lists in canonical form, and over them the byte stores (RAM, ROM, scratchpad) and the page mapping.
Words are built from bytes in one place, so that the byte order (20_memory.md R47) is decided once. -/

namespace Sys2Proof.Machine

/-- The value listed under a key. -/
def sparseGet {α : Type} (k : Nat) : List (Nat × α) → Option α
  | [] => none
  | c :: l => if c.1 = k then some c.2 else sparseGet k l

/-- The list without a key. -/
def sparseErase {α : Type} (k : Nat) (l : List (Nat × α)) : List (Nat × α) :=
  l.filter fun c => c.1 ≠ k

/-- The list with a key put at its place in the rising order (the key replaced where it is listed). -/
def sparsePut {α : Type} (k : Nat) (v : α) : List (Nat × α) → List (Nat × α)
  | [] => [(k, v)]
  | c :: l =>
    if k < c.1 then (k, v) :: c :: l
    else if k = c.1 then (k, v) :: l
    else c :: sparsePut k v l

/-- What a byte nothing has written reads as: 0, the reset value of every store (10_state.md R21, R22, R23; log entry
11). -/
def Memory.unlisted : Byte := 0

/-- One byte of a store. -/
def Memory.read (m : Memory) (a : Nat) : Byte := (sparseGet a m).getD Memory.unlisted

/-- A store with one byte written; the canonical form is kept. -/
def Memory.write (m : Memory) (a : Nat) (b : Byte) : Memory :=
  if b = Memory.unlisted then sparseErase a m else sparsePut a b m

/-- The canonical form: addresses strictly rising, no cell equal to what an unlisted address reads as. -/
abbrev Memory.wf (m : Memory) : Prop :=
  m.Pairwise (fun c d => c.1 < d.1) ∧ ∀ c ∈ m, c.2 ≠ Memory.unlisted

/-- The word at word address `w` of a store, little-endian (20_memory.md R47, R48). -/
def Memory.readWord (m : Memory) (w : Nat) : Word :=
  pack4 (m.read w) (m.read (w + 1)) (m.read (w + 2)) (m.read (w + 3))

/-- A store with the word at word address `w` written, little-endian (20_memory.md R47, R49). -/
def Memory.writeWord (m : Memory) (w : Nat) (v : Word) : Memory :=
  (((m.write w (byteOf v 0)).write (w + 1) (byteOf v 1)).write (w + 2) (byteOf v 2)).write (w + 3) (byteOf v 3)

/-- The store that holds a byte sequence from `base` on and nothing else: with `base` the base of ROM, word `j` of it is
`Pack(b, 4*j)` (44_host_control.md R150, R151). -/
def Memory.ofBytes (base : Nat) (b : List Byte) : Memory :=
  ((b.zipIdx base).map fun c => (c.2, c.1)).filter fun c => c.2 ≠ Memory.unlisted

/-- `PageMap(vpn)` (10_state.md R30): `none` is `Absent`. -/
def PageMap.entry (m : PageMap) (vpn : Vpn) : Option PageEntry := sparseGet vpn.toNat m

/-- The page mapping with one page's entry changed (10_state.md R30). -/
def PageMap.update (m : PageMap) (vpn : Vpn) (e : Option PageEntry) : PageMap :=
  match e with
  | none => sparseErase vpn.toNat m
  | some p => sparsePut vpn.toNat p m

/-- The canonical form of the page mapping: page numbers strictly rising and of 20 bits. -/
abbrev PageMap.wf (m : PageMap) : Prop :=
  m.Pairwise (fun c d => c.1 < d.1) ∧ ∀ c ∈ m, c.1 < 2 ^ 20

/-- Line `i` of a cache (10_state.md R25). -/
def Cache.line (c : Cache) (i : BitVec 7) : Line := c.lines[i.toNat]'i.isLt

/-- A cache with line `i` replaced. -/
def Cache.setLine (c : Cache) (i : BitVec 7) (l : Line) : Cache := { lines := c.lines.set i.toNat l i.isLt }

/-- Word `k` of a line (10_state.md R25). -/
def Line.word (l : Line) (k : BitVec 3) : Word := l.data[k.toNat]'k.isLt

/-- A line with word `k` replaced. -/
def Line.setWord (l : Line) (k : BitVec 3) (v : Word) : Line := { l with data := l.data.set k.toNat v k.isLt }

end Sys2Proof.Machine
end

