-- ==== Sys2Proof/Machine/Flags.lean ====
section
/-! DEFINITION. The block's one-bit state (10_state.md R35): what reads, sets and clears `valid`, `log_enabled` and
`rom_loaded`, with the log they gate (60_exceptions.md R176). -/

namespace Sys2Proof.Machine

/-- The two cache instances (10_state.md R26; `C` of 30_encoding.md R75): data 0, instruction 1. -/
inductive CacheSel where
  | data
  | inst
deriving DecidableEq, Repr

/-- The selected instance (43_cache.md R131). -/
def State.cache (s : State) : CacheSel → Cache
  | .data => s.dcache
  | .inst => s.icache

/-- The state with the selected instance replaced; the other is untouched (10_state.md R26). -/
def State.setCache (s : State) (c : CacheSel) (k : Cache) : State :=
  match c with
  | .data => { s with dcache := k }
  | .inst => { s with icache := k }

/-- The hit test (43_cache.md R132): the line at `idx` is valid and holds `tag`. -/
def Cache.hits (c : Cache) (pa : Word) : Bool :=
  (c.line (cacheIdx pa)).valid && (c.line (cacheIdx pa)).tag == cacheTag pa

/-- `LogAppend(op, addr, size)` (60_exceptions.md R176). -/
def State.logAppend (s : State) (op : LogOp) (addr : Word) (size : Byte) : State :=
  if s.logEnabled then { s with log := s.log ++ [{ op := op, addr := addr, size := size }] } else s

/-- The write of `log_enabled` by LOGEN and LOGDIS (44_host_control.md R153, R154). -/
def State.setLogEnabled (s : State) (b : Bool) : State := { s with logEnabled := b }

end Sys2Proof.Machine
end

