-- ==== Sys2Proof/Machine/Ops.lean ====
section
/-! DEFINITION. The named operations over the stores, the caches and the ports. `MemRead` and `MemWrite` (20_memory.md R48,
R49) never log; the operations that report do it through `logAppend`. The block takes no exception (60_exceptions.md R170,
R182): what an ISA would trap on is completed here by `answerBadCommand` or by a request's own default value. -/

namespace Sys2Proof.Machine

/-- Word `j` of RAM, the spec's `ram[j]` (10_state.md R21, 20_memory.md R46). -/
def State.ramWord (s : State) (j : Nat) : Word := Memory.readWord s.ram (Config.ramBase + 4 * j)

/-- Word `j` of ROM, the spec's `rom[j]` (10_state.md R22, 20_memory.md R46). -/
def State.romWord (s : State) (j : Nat) : Word := Memory.readWord s.rom (Config.romBase + 4 * j)

/-- Byte `j` of the scratchpad, the spec's `spad[j]` (10_state.md R23, 20_memory.md R46). -/
def State.spadByte (s : State) (j : Nat) : Byte := Memory.read s.spad (Config.spadBase + j)

/-- The byte of the backing store at a physical address; 0 out of range (20_memory.md R44). -/
def State.byteAt (s : State) (pa : Word) : Byte :=
  match region pa with
  | .ram => Memory.read s.ram pa.toNat
  | .rom => Memory.read s.rom pa.toNat
  | .spad => Memory.read s.spad pa.toNat
  | .outOfRange => 0

/-- `MemRead(pa, 4)` (20_memory.md R48). -/
def State.memRead (s : State) (pa : Word) : Word :=
  match region (alignWord pa) with
  | .ram => Memory.readWord s.ram (alignWord pa).toNat
  | .rom => Memory.readWord s.rom (alignWord pa).toNat
  | .spad => Memory.readWord s.spad (alignWord pa).toNat
  | .outOfRange => 0

/-- `MemWrite(pa, 4, v)` (20_memory.md R49): dropped for ROM (R58) and out of range (R44). -/
def State.memWrite (s : State) (pa v : Word) : State :=
  match region (alignWord pa) with
  | .ram => { s with ram := Memory.writeWord s.ram (alignWord pa).toNat v }
  | .rom => s
  | .spad => { s with spad := Memory.writeWord s.spad (alignWord pa).toNat v }
  | .outOfRange => s

/-- Out-of-range reporting (41_router.md R101): one record, with the access's own address and width, exactly when the word
that contains the address is in no region. -/
def State.reportOutOfRange (s : State) (op : LogOp) (pa : Word) (size : Byte) : State :=
  if region (alignWord pa) = .outOfRange then s.logAppend op pa size else s

/-- A response is given after all the request's effects (30_encoding.md R71). -/
def State.respond (s : State) (r : Response) : State := { s with responses := s.responses ++ [r] }

/-- A router read (41_router.md R103 to R105): report, then the lane of the containing word, zero-extended, in `rdata`. -/
def State.routerRead (s : State) (pa : Word) (size : Byte) (lane : Word → Word) : State :=
  let s1 := s.reportOutOfRange .read pa size
  s1.respond { rdata := lane (s1.memRead pa) }

/-- A router write (41_router.md R106 to R108) without its response: report once as a write, then write back the
containing word as `compose` makes it from the old one. The internal read never logs. -/
def State.routerWrite (s : State) (pa : Word) (size : Byte) (compose : Word → Word) : State :=
  let s1 := s.reportOutOfRange .write pa size
  s1.memWrite pa (compose (s1.memRead pa))

/-- `LineFill(C, pa)` (43_cache.md R133): eight router reads of the block in order, each out-of-range one logged, then the
line replaced. -/
def State.lineFill (s : State) (c : CacheSel) (pa : Word) : State :=
  let s1 := (lineWords pa).foldl (fun t a => t.reportOutOfRange .read a 4) s
  let b := lineBase pa
  s1.setCache c ((s1.cache c).setLine (cacheIdx pa)
    { tag := cacheTag pa
      data := #v[s1.memRead b, s1.memRead (b + 4), s1.memRead (b + 8), s1.memRead (b + 12),
                 s1.memRead (b + 16), s1.memRead (b + 20), s1.memRead (b + 24), s1.memRead (b + 28)]
      valid := true })

/-- A cache read (43_cache.md R134, R135): fill on a miss, then the word of the line. -/
def State.cacheRead (s : State) (c : CacheSel) (pa : Word) : State :=
  let s1 := if (s.cache c).hits pa then s else s.lineFill c pa
  s1.respond { rdata := ((s1.cache c).line (cacheIdx pa)).word (cacheOff pa) }

/-- `CacheWrite(C, pa, v)` (43_cache.md R136): tag, one word and valid of the line at `idx`; nothing is filled. -/
def State.cacheWriteLine (s : State) (c : CacheSel) (pa v : Word) : State :=
  let l := (s.cache c).line (cacheIdx pa)
  s.setCache c ((s.cache c).setLine (cacheIdx pa)
    { l.setWord (cacheOff pa) v with tag := cacheTag pa, valid := true })

/-- The write-policy step (43_cache.md R137): nothing under `CacheOnly`, exactly the effect of WR32 under
`WriteThrough`. -/
def State.writePolicyStep (s : State) (pa v : Word) : State :=
  match s.params.writePolicy with
  | .cacheOnly => s
  | .writeThrough => s.routerWrite pa 4 (fun _ => v)

/-- A cache write (43_cache.md R138, R139): the line first, then the write policy, then the response. -/
def State.cacheWrite (s : State) (c : CacheSel) (pa v : Word) : State :=
  ((s.cacheWriteLine c pa v).writePolicyStep pa v).respond {}

/-- `Translate(va)` (42_translate.md R121): the mapped base plus the page offset modulo 2^32, or `va` itself. -/
def PageMap.translate (m : PageMap) (va : Word) : Word :=
  match PageMap.entry m (vpnOf va) with
  | some e => if e.valid then e.base + pageOffset va else va
  | none => va

/-- Whether XLATE of `va` finds a valid entry (42_translate.md R120, 20_memory.md R60). -/
def PageMap.maps (m : PageMap) (va : Word) : Bool :=
  match PageMap.entry m (vpnOf va) with
  | some e => e.valid
  | none => false

/-- The whole ROM replaced by an image, and `rom_loaded` set (44_host_control.md R150, R151). -/
def State.loadRom (s : State) (b : List Byte) : State :=
  { s with rom := Memory.ofBytes Config.romBase b, romLoaded := true }

/-- The answer to a reserved command (30_encoding.md R78, 60_exceptions.md R179): no state change, no record, status
`BAD_COMMAND`. DESIGN CHOICE (log entry 7): the rule's effect, not the refusal 93_implementation_defined.md advises. -/
def State.answerBadCommand (s : State) : State := s.respond { status := .badCommand }

/-- The MMU-setup actor's change of one page's entry, between requests (10_state.md R30, 20_memory.md R68). -/
def State.mmuSetPage (s : State) (vpn : Vpn) (e : Option PageEntry) : State :=
  { s with pageMap := PageMap.update s.pageMap vpn e }

/-- The element of the input sequence that is taken next, and the state without it; `none` when none is left. -/
def State.takeInput (s : State) : Option (Event × State) :=
  match s.inputs with
  | [] => none
  | e :: rest => some (e, { s with inputs := rest })

/-- The state with a request put where the next one is taken from. -/
def State.issueNext (s : State) (r : Request) : State := { s with inputs := .request r :: s.inputs }

/-- `rdata` of the last response given. -/
def State.lastRdata (s : State) : Word :=
  match s.responses.getLast? with
  | some r => r.rdata
  | none => 0

/-- The guest address a pseudo-request translates (30_encoding.md R83). -/
def Pseudo.guest : Pseudo → Word
  | .vrd8 va => va
  | .vrd16 va => va
  | .vrd32 va => va
  | .vwr8 va _ => va
  | .vwr16 va _ => va
  | .vwr32 va _ => va
  | .vcrdd va => va
  | .vcrdi va => va
  | .vcwrd va _ => va
  | .vcwri va _ => va

/-- The second request of a pseudo-request, at the physical address the first one answered (30_encoding.md R83). -/
def Pseudo.access (p : Pseudo) (pa : Word) : Instr :=
  match p with
  | .vrd8 _ => .rd8 pa
  | .vrd16 _ => .rd16 pa
  | .vrd32 _ => .rd32 pa
  | .vwr8 _ d => .wr8 pa d
  | .vwr16 _ d => .wr16 pa d
  | .vwr32 _ d => .wr32 pa d
  | .vcrdd _ => .crdd pa
  | .vcrdi _ => .crdi pa
  | .vcwrd _ d => .cwrd pa d
  | .vcwri _ d => .cwri pa d

/-- After the XLATE of a pseudo-request: its second request is the next one taken, so that nothing falls between the two
(30_encoding.md R83; log entry 10). -/
def State.issueAccess (s : State) (p : Pseudo) : State := s.issueNext (encode (p.access s.lastRdata))

end Sys2Proof.Machine
end

