-- ==== Sys2Proof/Machine/CacheControl.lean ====
section
/-! DEFINITION. The cache requests (43_cache.md R130 to R142); R131 gives each its instance. -/

namespace Sys2Proof.Machine

/-- CRDD (43_cache.md R134). -/
def execCrdd (pa : Word) (s : State) : Host.Outcome State Fault Refusal := .next (s.cacheRead .data pa)

/-- CRDI (43_cache.md R135). -/
def execCrdi (pa : Word) (s : State) : Host.Outcome State Fault Refusal := .next (s.cacheRead .inst pa)

/-- CWRD (43_cache.md R138). -/
def execCwrd (pa v : Word) (s : State) : Host.Outcome State Fault Refusal := .next (s.cacheWrite .data pa v)

/-- CWRI (43_cache.md R139). -/
def execCwri (pa v : Word) (s : State) : Host.Outcome State Fault Refusal := .next (s.cacheWrite .inst pa v)

end Sys2Proof.Machine
end

