-- ==== Sys2Proof/Machine/HostControl.lean ====
section
/-! DEFINITION. The host and control requests (44_host_control.md R150 to R155). -/

namespace Sys2Proof.Machine

/-- LOADIMG (44_host_control.md R150, R152): refused by status when an image is already loaded, when the host could not
open the file and when the size is wrong; else the whole ROM is replaced. DESIGN CHOICE (log entry 8): a second load has
the effect R152 gives it, not the refusal 93_implementation_defined.md advises. -/
def execLoadimg (image : Image) (s : State) : Host.Outcome State Fault Refusal :=
  .next <|
    if s.romLoaded then s.respond { status := .imageLoadError }
    else
      match image with
      | none => s.respond { status := .imageLoadError }
      | some b =>
        if b.length ≠ Config.romSize then s.respond { status := .imageLoadError }
        else (s.loadRom b).respond {}

/-- LOGEN (44_host_control.md R153). -/
def execLogen (sinkOk : Bool) (s : State) : Host.Outcome State Fault Refusal :=
  .next <|
    if sinkOk then (s.setLogEnabled true).respond {}
    else (s.setLogEnabled false).respond { status := .logSinkError }

/-- LOGDIS (44_host_control.md R154). -/
def execLogdis (s : State) : Host.Outcome State Fault Refusal :=
  .next ((s.setLogEnabled false).respond {})

/-- DUMP (44_host_control.md R155): the words of the range from the backing store; with `DUMP_LOGS` each out-of-range
word is logged at its own address. -/
def execDump (start len : Word) (s : State) : Host.Outcome State Fault Refusal :=
  let s1 :=
    if s.params.dumpLogs then (dumpWords start len).foldl (fun t w => t.reportOutOfRange .read w 4) s else s
  .next (s1.respond { dump := (dumpWords start len).map fun w => (w, s1.memRead w) })

end Sys2Proof.Machine
end

