-- ==== Sys2Proof/Machine/Router.lean ====
section
/-! DEFINITION. The router requests (41_router.md R100 to R108). -/

namespace Sys2Proof.Machine

/-- RD8 (41_router.md R105). -/
def execRd8 (pa : Word) (s : State) : Host.Outcome State Fault Refusal :=
  .next (s.routerRead pa 1 fun w => extractLane w (laneShift byteMask pa) 8)

/-- RD16 (41_router.md R104). -/
def execRd16 (pa : Word) (s : State) : Host.Outcome State Fault Refusal :=
  .next (s.routerRead pa 2 fun w => extractLane w (laneShift (halfMaskWord s.params.halfMask) pa) 16)

/-- RD32 (41_router.md R103). -/
def execRd32 (pa : Word) (s : State) : Host.Outcome State Fault Refusal :=
  .next (s.routerRead pa 4 fun w => w)

/-- WR8 (41_router.md R108). -/
def execWr8 (pa v : Word) (s : State) : Host.Outcome State Fault Refusal :=
  .next ((s.routerWrite pa 1 fun w => injectLane w (laneShift byteMask pa) 8 v).respond {})

/-- WR16 (41_router.md R107). -/
def execWr16 (pa v : Word) (s : State) : Host.Outcome State Fault Refusal :=
  .next ((s.routerWrite pa 2 fun w =>
    injectLane w (laneShift (halfMaskWord s.params.halfMask) pa) 16 v).respond {})

/-- WR32 (41_router.md R106). -/
def execWr32 (pa v : Word) (s : State) : Host.Outcome State Fault Refusal :=
  .next ((s.routerWrite pa 4 fun _ => v).respond {})

end Sys2Proof.Machine
end

