-- ==== Sys2Proof/Machine/Translator.lean ====
section
/-! DEFINITION. The translator request (42_translate.md R120 to R123). -/

namespace Sys2Proof.Machine

/-- XLATE (42_translate.md R120): the mapped address on a hit; on a miss one record and the identity. -/
def execXlate (va : Word) (s : State) : Host.Outcome State Fault Refusal :=
  let s1 := if PageMap.maps s.pageMap va then s else s.logAppend .translationMiss va 0
  .next (s1.respond { rdata := PageMap.translate s.pageMap va })

end Sys2Proof.Machine
end

