-- ==== Sys2Proof/Machine/Dispatch.lean ====
section
/-! DEFINITION. One arm per instruction. -/

namespace Sys2Proof.Machine

def exec (i : Instr) (s : State) : Host.Outcome State Fault Refusal :=
  match i with
  | .rd8 addr => Sys2Proof.Machine.execRd8 addr s
  | .rd16 addr => Sys2Proof.Machine.execRd16 addr s
  | .rd32 addr => Sys2Proof.Machine.execRd32 addr s
  | .wr8 addr wdata => Sys2Proof.Machine.execWr8 addr wdata s
  | .wr16 addr wdata => Sys2Proof.Machine.execWr16 addr wdata s
  | .wr32 addr wdata => Sys2Proof.Machine.execWr32 addr wdata s
  | .xlate addr => Sys2Proof.Machine.execXlate addr s
  | .crdd addr => Sys2Proof.Machine.execCrdd addr s
  | .crdi addr => Sys2Proof.Machine.execCrdi addr s
  | .cwrd addr wdata => Sys2Proof.Machine.execCwrd addr wdata s
  | .cwri addr wdata => Sys2Proof.Machine.execCwri addr wdata s
  | .loadimg image => Sys2Proof.Machine.execLoadimg image s
  | .logen sinkOk => Sys2Proof.Machine.execLogen sinkOk s
  | .logdis => Sys2Proof.Machine.execLogdis s
  | .dump addr len => Sys2Proof.Machine.execDump addr len s

end Sys2Proof.Machine
end

