-- ==== Sys2Proof/Machine/Port.lean ====
section
/-! DEFINITION. What a step does with one element of the input sequence (00_scope.md R5, 10_state.md R32). -/

namespace Sys2Proof.Machine

/-- A request at the port: the decoded instruction's meaning, or the answer to a reserved command (30_encoding.md R78,
R80). -/
def runRequest (r : Request) (s : State) : Host.Outcome State Fault Refusal :=
  match decode r with
  | .ok i => exec i s
  | .error _ => .next s.answerBadCommand

/-- A pseudo-request (30_encoding.md R83): its XLATE now, its access as the very next request. -/
def runPseudo (p : Pseudo) (s : State) : Host.Outcome State Fault Refusal :=
  match exec (.xlate p.guest) s with
  | .next t => .next (t.issueAccess p)
  | .fault f => .fault f
  | .refused r => .refused r

/-- One element of the input sequence. -/
def runEvent (e : Event) (s : State) : Host.Outcome State Fault Refusal :=
  match e with
  | .request r => runRequest r s
  | .pseudo p => runPseudo p s
  | .setPage vpn entry => .next (s.mmuSetPage vpn entry)

/-- The next element of the input sequence, taken; with none left nothing happens and all state persists
(60_exceptions.md R189; log entry 3). -/
def runNext (s : State) : Host.Outcome State Fault Refusal :=
  match s.takeInput with
  | none => .next s
  | some (e, t) => runEvent e t

end Sys2Proof.Machine
end

