-- ==== Sys2Proof/Machine/Step.lean ====
section
/-! DEFINITION. One step: the next element of the input sequence (10_state.md R32; 00_scope.md R5) is taken and has all its
effects before the step ends (20_memory.md R56). The block has no program counter; log entry 2 says how a program comes to
run. -/

namespace Sys2Proof.Machine

/-- One step of the block. -/
def step (s : State) : Host.Outcome State Fault Refusal := runNext s

/-- The state with the request whose bits are `w` issued as the next one taken. -/
def State.withFetchWord (s : State) (nbits w : Nat) : State := s.issueNext (Request.ofBits nbits w)

end Sys2Proof.Machine
end

