-- ==== Sys2Proof/Machine/Conditions.lean ====
section
/-! DEFINITION. The conditions of 60_exceptions.md R171. A condition is not state: the functions below say, before a request
runs, which conditions it will meet, in the order it reports them (R178, R181). -/

namespace Sys2Proof.Machine

/-- The five conditions (60_exceptions.md R171). -/
inductive Condition where
  | outOfRange
  | imageLoadError
  | logSinkError
  | translationMiss
  | badCommand
deriving DecidableEq, Repr

/-- The condition's number (60_exceptions.md R171). -/
def Condition.number : Condition → Nat
  | .outOfRange => 1
  | .imageLoadError => 2
  | .logSinkError => 3
  | .translationMiss => 4
  | .badCommand => 5

/-- `OutOfRange` once for each of the given accesses whose word is in no region (60_exceptions.md R171 no. 1). -/
def outOfRangeOnes (accesses : List Word) : List Condition :=
  (accesses.filter fun a => region (alignWord a) = .outOfRange).map fun _ => .outOfRange

/-- The backing-store accesses of a request that are reported when out of range (60_exceptions.md R171, R178;
20_memory.md R55): the read and the write of a WR8 or WR16 are reported as one. -/
def reportedAccesses (i : Instr) (s : State) : List Word :=
  match i with
  | .rd8 pa => [pa]
  | .rd16 pa => [pa]
  | .rd32 pa => [pa]
  | .wr8 pa _ => [pa]
  | .wr16 pa _ => [pa]
  | .wr32 pa _ => [pa]
  | .xlate _ => []
  | .crdd pa => if s.dcache.hits pa then [] else lineWords pa
  | .crdi pa => if s.icache.hits pa then [] else lineWords pa
  | .cwrd pa _ => if s.params.writePolicy = .writeThrough then [pa] else []
  | .cwri pa _ => if s.params.writePolicy = .writeThrough then [pa] else []
  | .loadimg _ => []
  | .logen _ => []
  | .logdis => []
  | .dump start len => if s.params.dumpLogs then dumpWords start len else []

/-- Whether a LOADIMG fails (60_exceptions.md R171 no. 2). -/
def imageLoadFails (image : Image) (s : State) : Bool :=
  s.romLoaded ||
    match image with
    | none => true
    | some b => b.length ≠ Config.romSize

/-- The conditions an instruction meets in a state (60_exceptions.md R171, R181). -/
def conditionsOf (i : Instr) (s : State) : List Condition :=
  match i with
  | .xlate va => if PageMap.maps s.pageMap va then [] else [.translationMiss]
  | .loadimg image => if imageLoadFails image s then [.imageLoadError] else []
  | .logen sinkOk => if sinkOk then [] else [.logSinkError]
  | .logdis => []
  | .rd8 pa => outOfRangeOnes (reportedAccesses (.rd8 pa) s)
  | .rd16 pa => outOfRangeOnes (reportedAccesses (.rd16 pa) s)
  | .rd32 pa => outOfRangeOnes (reportedAccesses (.rd32 pa) s)
  | .wr8 pa v => outOfRangeOnes (reportedAccesses (.wr8 pa v) s)
  | .wr16 pa v => outOfRangeOnes (reportedAccesses (.wr16 pa v) s)
  | .wr32 pa v => outOfRangeOnes (reportedAccesses (.wr32 pa v) s)
  | .crdd pa => outOfRangeOnes (reportedAccesses (.crdd pa) s)
  | .crdi pa => outOfRangeOnes (reportedAccesses (.crdi pa) s)
  | .cwrd pa v => outOfRangeOnes (reportedAccesses (.cwrd pa v) s)
  | .cwri pa v => outOfRangeOnes (reportedAccesses (.cwri pa v) s)
  | .dump start len => outOfRangeOnes (reportedAccesses (.dump start len) s)

/-- The conditions a request meets (60_exceptions.md R171): a reserved `cmd` meets `BadCommand` alone (R179). -/
def requestConditions (r : Request) (s : State) : List Condition :=
  match decode r with
  | .ok i => conditionsOf i s
  | .error _ => [.badCommand]

end Sys2Proof.Machine
end

