-- ==== Sys2Proof/Safety.lean ====
section
/-! DEFINITION. What counts as a good state and as a safe input, in the terms the statements use. The block has no error
state (60_exceptions.md R170); a run is safe when no request of it meets a condition of R171. -/

namespace Sys2Proof.Machine

/-- Every listed address of a store lies in its region. -/
abbrev Memory.within (m : Memory) (base size : Nat) : Prop := ∀ c ∈ m, base ≤ c.1 ∧ c.1 < base + size

/-- The invariant of the model: every store is canonical (the model's form, log entry 1) and lies in its region
(20_memory.md R41), the page mapping is canonical (the model's form, log entry 6), ROM is all zero until an image is loaded
(10_state.md R22, R29), and every record of the log has a size its operation admits (30_encoding.md R84). -/
abbrev State.wf (s : State) : Prop :=
  (Memory.wf s.ram ∧ Memory.within s.ram Config.ramBase Config.ramSize) ∧
  (Memory.wf s.rom ∧ Memory.within s.rom Config.romBase Config.romSize) ∧
  (Memory.wf s.spad ∧ Memory.within s.spad Config.spadBase Config.spadSize) ∧
  PageMap.wf s.pageMap ∧
  (s.romLoaded = false → s.rom = []) ∧
  (∀ r ∈ s.log, LogRecord.wellFormed r = true)

/-- Line residency without staleness: the block containing `pa` is resident and its eight words are the backing store's
(43_cache.md R143). -/
def State.lineCoherent (s : State) (c : CacheSel) (pa : Word) : Prop :=
  (s.cache c).hits pa = true ∧
    ∀ k : BitVec 3,
      ((s.cache c).line (cacheIdx pa)).word k = s.memRead (lineBase pa + 4 * k.setWidth 32)

/-- A request that meets no condition (60_exceptions.md R171). -/
def State.safeRequest (s : State) (r : Request) : Prop := requestConditions r s = []

end Sys2Proof.Machine
end

