-- ==== Sys2Proof/Certificates/Slice0/Obligations.lean ====
section
/-! DEFINITION. The statements about the block, from the numbered rules of spec/. Each docstring names the rules or
sections a statement formalises, and the decision (92_eei_decisions.md D<n>) or the log entry it rests on where the spec's
source does not settle the point.

The vocabulary below is written from the spec's tables, in numbers and bits, and not through the functions the meanings
use. Reads of the backing store go through `State.byteAt`, the model's read of one byte. -/

namespace Sys2Proof.Vocabulary

open Machine

/-- 20_memory.md R41, RAM's row. -/
def inRam (pa : Word) : Bool := decide (pa.toNat ≤ 0x01FFFFFF)
/-- 20_memory.md R41, the scratchpad's row. -/
def inSpad (pa : Word) : Bool := decide (0x70000000 ≤ pa.toNat ∧ pa.toNat ≤ 0x70003FFF)
/-- 20_memory.md R41, ROM's row. -/
def inRom (pa : Word) : Bool := decide (0xBFC00000 ≤ pa.toNat ∧ pa.toNat ≤ 0xBFFFFFFF)
/-- 20_memory.md R44: in no region. -/
def outside (pa : Word) : Bool := !inRam pa && !inSpad pa && !inRom pa
/-- The regions a write reaches (20_memory.md R49). -/
def storable (pa : Word) : Bool := inRam pa || inSpad pa

/-- `pa & ~0x3`. -/
def wordAddr (pa : Word) : Word := pa &&& 0xFFFFFFFC#32
/-- `pa & ~0x1F`. -/
def blockAddr (pa : Word) : Word := pa &&& 0xFFFFFFE0#32
/-- `pa[11:5]`. -/
def idxBits (pa : Word) : BitVec 7 := pa.extractLsb' 5 7
/-- `pa[31:12]`. -/
def tagBits (pa : Word) : BitVec 20 := pa.extractLsb' 12 20
/-- `pa[4:2]`. -/
def slotBits (pa : Word) : BitVec 3 := pa.extractLsb' 2 3
/-- The two addresses agree in bits 31:5. -/
def sameBlock (a b : Word) : Prop := a.toNat / 32 = b.toNat / 32

/-- The word that contains `pa`, as its four bytes, the lowest address in the least significant bits (20_memory.md R47). -/
def wordOf (s : State) (pa : Word) : Word :=
  s.byteAt (wordAddr pa + 3) ++ s.byteAt (wordAddr pa + 2) ++ s.byteAt (wordAddr pa + 1) ++ s.byteAt (wordAddr pa)

/-- The log after a request that reports the given records (60_exceptions.md R176). -/
def recorded (s : State) (rs : List LogRecord) : List LogRecord := if s.logEnabled then s.log ++ rs else s.log

/-- One record exactly when the access is out of range (41_router.md R101). -/
def ifOutside (op : LogOp) (pa : Word) (size : Byte) : List LogRecord :=
  if outside pa then [{ op := op, addr := pa, size := size }] else []

/-- The eight records of an out-of-range line fill, k = 0 to 7 (43_cache.md R133, 60_exceptions.md R177). -/
def fillRecords (pa : Word) : List LogRecord :=
  if outside pa then
    ([0, 4, 8, 12, 16, 20, 24, 28] : List Word).map fun n => { op := .read, addr := blockAddr pa + n, size := 4 }
  else []

/-- Line `pa[11:5]` of an instance. -/
def lineAt (s : State) (c : CacheSel) (pa : Word) : Line := (s.cache c).line (idxBits pa)

/-- The block that contains `pa` is resident in an instance (43_cache.md R132). -/
def resident (s : State) (c : CacheSel) (pa : Word) : Bool :=
  (lineAt s c pa).valid && decide ((lineAt s c pa).tag = tagBits pa)

/-- The cache read of an instance: CRDD or CRDI (43_cache.md R131). -/
def readOf (c : CacheSel) (pa : Word) : Instr :=
  match c with
  | .data => .crdd pa
  | .inst => .crdi pa

/-- The cache write of an instance: CWRD or CWRI (43_cache.md R131). -/
def writeOf (c : CacheSel) (pa v : Word) : Instr :=
  match c with
  | .data => .cwrd pa v
  | .inst => .cwri pa v

/-- The instruction completes and answers status `OK`, `rdata = v` and an empty dump. -/
def readsAs (i : Instr) (s : State) (v : Word) : Prop :=
  ∃ t, exec i s = .next t ∧ t.responses = s.responses ++ [{ status := .ok, rdata := v, dump := [] }]

/-- Everything but the two writable stores, the caches, the log and the responses is as before, ROM among it. -/
def sameConfigRomAndControl (s t : State) : Prop :=
  t.params = s.params ∧ t.pageMap = s.pageMap ∧ t.rom = s.rom ∧ t.logEnabled = s.logEnabled ∧
    t.romLoaded = s.romLoaded ∧ t.inputs = s.inputs

/-- Both caches are as before. -/
def sameCaches (s t : State) : Prop := t.icache = s.icache ∧ t.dcache = s.dcache

/-- RAM and scratchpad are as before. -/
def sameStores (s t : State) : Prop := t.ram = s.ram ∧ t.spad = s.spad

/-- Every line of every instance is as before but for line `pa[11:5]` of instance `c`. -/
def sameOtherLines (s t : State) (c : CacheSel) (pa : Word) : Prop :=
  ∀ d j, (d ≠ c ∨ j ≠ idxBits pa) → (t.cache d).line j = (s.cache d).line j

/-- The default answer of a write (41_router.md R100, 43_cache.md R138). -/
def answersVoid (s t : State) : Prop := t.responses = s.responses ++ [{ status := .ok, rdata := 0, dump := [] }]

/-- A cache write's effect on the caches (43_cache.md R136): the line at `pa[11:5]` becomes valid with the tag of `pa`
and the word at `pa[4:2]`; its other seven words and every other line stay. -/
def writesLine (s t : State) (c : CacheSel) (pa v : Word) : Prop :=
  (lineAt t c pa).valid = true ∧ (lineAt t c pa).tag = tagBits pa ∧
    (∀ k, (lineAt t c pa).word k = if k = slotBits pa then v else (lineAt s c pa).word k) ∧
    sameOtherLines s t c pa

/-- The page's entry is present and valid (20_memory.md R60). -/
def mapped (s : State) (va : Word) (base : Word) : Prop :=
  PageMap.entry s.pageMap (va.extractLsb' 12 20) = some { base := base, valid := true }

/-- The records of a request, when logging is on (60_exceptions.md R177, R178). The words a DUMP visits are
`dumpWords`, which DumpListsTheWordsOfTheRange pins down. -/
def recordsOf (i : Instr) (s : State) : List LogRecord :=
  match i with
  | .rd8 pa => ifOutside .read pa 1
  | .rd16 pa => ifOutside .read pa 2
  | .rd32 pa => ifOutside .read pa 4
  | .wr8 pa _ => ifOutside .write pa 1
  | .wr16 pa _ => ifOutside .write pa 2
  | .wr32 pa _ => ifOutside .write pa 4
  | .xlate va =>
    match PageMap.entry s.pageMap (va.extractLsb' 12 20) with
    | some e => if e.valid then [] else [{ op := .translationMiss, addr := va, size := 0 }]
    | none => [{ op := .translationMiss, addr := va, size := 0 }]
  | .crdd pa => if resident s .data pa then [] else fillRecords pa
  | .crdi pa => if resident s .inst pa then [] else fillRecords pa
  | .cwrd pa _ => if s.params.writePolicy = .writeThrough then ifOutside .write pa 4 else []
  | .cwri pa _ => if s.params.writePolicy = .writeThrough then ifOutside .write pa 4 else []
  | .loadimg _ => []
  | .logen _ => []
  | .logdis => []
  | .dump start len =>
    if s.params.dumpLogs then
      ((dumpWords start len).filter fun w => outside w).map fun w => { op := .read, addr := w, size := 4 }
    else []

/-- The requests that may end the equality of a resident line with the backing store (43_cache.md R143): a WR* to the
block, a cache write to the line or to the block's backing words, a read of another block at the same index of the same
instance, and LOADIMG. -/
def disturbs (c : CacheSel) (pa : Word) (i : Instr) : Prop :=
  match i with
  | .wr8 a _ => sameBlock a pa
  | .wr16 a _ => sameBlock a pa
  | .wr32 a _ => sameBlock a pa
  | .crdd a => c = .data ∧ idxBits a = idxBits pa ∧ tagBits a ≠ tagBits pa
  | .crdi a => c = .inst ∧ idxBits a = idxBits pa ∧ tagBits a ≠ tagBits pa
  | .cwrd a _ => (c = .data ∧ idxBits a = idxBits pa) ∨ sameBlock a pa
  | .cwri a _ => (c = .inst ∧ idxBits a = idxBits pa) ∨ sameBlock a pa
  | .loadimg _ => True
  | .rd8 _ => False
  | .rd16 _ => False
  | .rd32 _ => False
  | .xlate _ => False
  | .logen _ => False
  | .logdis => False
  | .dump _ _ => False

/-- The fields of a request an operation uses (30_encoding.md R70), by command. -/
def usesAddr (c : Byte) : Prop :=
  c ∈ ([0x00, 0x01, 0x02, 0x04, 0x05, 0x06, 0x10, 0x20, 0x21, 0x24, 0x25, 0x33] : List Byte)
def usesWdata (c : Byte) : Prop := c ∈ ([0x04, 0x05, 0x06, 0x24, 0x25] : List Byte)
def usesLen (c : Byte) : Prop := c = 0x33
def usesImage (c : Byte) : Prop := c = 0x30
def usesSinkOk (c : Byte) : Prop := c = 0x31

end Sys2Proof.Vocabulary

open Sys2Proof Sys2Proof.Machine Sys2Proof.Vocabulary

/-! ### Encoding -/

/-- Words written out from the tables of 30_encoding.md §2 (the spec's own encoding, D3): WR32 is 0000 0 1 10, XLATE 0x10,
CWRI 0010 0 1 0 1, DUMP 0x33, RD16 0000 0 0 01; 0x03 (`SZ = 11`) is reserved. -/
def Obligations.SpecEncodingsDecodeToTheirOperations : Prop :=
  decodeTableWord 8 0b00000110 = some (.wr32 0 0) ∧
  decodeTableWord 8 0b00000001 = some (.rd16 0) ∧
  decodeTableWord 8 0b00010000 = some (.xlate 0) ∧
  decodeTableWord 8 0b00100101 = some (.cwri 0 0) ∧
  decodeTableWord 8 0b00110011 = some (.dump 0 0) ∧
  decodeTableWord 8 0b00000011 = none

/-- 30_encoding.md §1 to §4 (the spec's own encoding, D3): for every instruction, with every operand at every value,
decoding its request gives it back; and a request that decodes to an instruction has that instruction's command and
decodes as that instruction's own request does. -/
def Obligations.DecodeOfEncodeIsTheInstruction : Prop :=
  (∀ i, decode (encode i) = .ok i) ∧
  (∀ r i, decode r = .ok i → (encode i).cmd = r.cmd ∧ decode (encode i) = decode r)

/-- 30_encoding.md §1, "A field the operation does not use is ignored and has no effect" (record of D3): two requests with
one command that agree in the fields that command uses decode alike. -/
def Obligations.UnusedRequestFieldsHaveNoEffect : Prop :=
  ∀ r q : Request, r.cmd = q.cmd →
    (usesAddr r.cmd → r.addr = q.addr) → (usesWdata r.cmd → r.wdata = q.wdata) →
    (usesLen r.cmd → r.len = q.len) → (usesImage r.cmd → r.image = q.image) →
    (usesSinkOk r.cmd → r.sinkOk = q.sinkOk) → decode r = decode q

/-- 30_encoding.md §2 and §4 (D3, D4): a command selects an operation exactly when its unit and function bits are those
of one of the four tables; every other command is rejected by name. -/
def Obligations.DefinedCommandsFollowUnitAndFunctionBits : Prop :=
  ∀ r : Request,
    let unit := r.cmd.extractLsb' 4 4
    let defined :=
      (unit = 0#4 ∧ r.cmd.getLsbD 3 = false ∧ r.cmd.extractLsb' 0 2 ≠ 3#2) ∨
      (unit = 1#4 ∧ r.cmd.extractLsb' 0 4 = 0#4) ∨
      (unit = 2#4 ∧ r.cmd.getLsbD 3 = false ∧ r.cmd.getLsbD 1 = false) ∨
      (unit = 3#4 ∧ r.cmd.extractLsb' 2 2 = 0#2)
    (defined → ∃ i, decode r = .ok i) ∧ (¬ defined → decode r = .error (.badCommand r.cmd))

/-- 30_encoding.md §5 and §7 (D5, D28): the codes of a status and of a log record are one to one; operation code 3 and a
size that does not fit the operation are rejected by a log reader. -/
def Obligations.StatusAndRecordCodesRoundTrip : Prop :=
  (∀ c : BitVec 2, Status.code (Status.ofCode c) = c) ∧ (∀ st, Status.ofCode (Status.code st) = st) ∧
  (∀ r : LogRecord, LogRecord.wellFormed r = true → LogRecord.decode (LogRecord.encode r) = some r) ∧
  (∀ f r, LogRecord.decode f = some r → LogRecord.encode r = f ∧ LogRecord.wellFormed r = true) ∧
  (∀ a n, LogRecord.decode (3#2, a, n) = none)

/-! ### Steps -/

/-- 10_state.md §7 and 30_encoding.md §4 (D24; the input sequence is the model's, log entry 2): when the next input is a
request that decodes to an instruction, a step is that instruction's meaning on the state without that input. -/
def Obligations.StepRunsTheDecodedRequest : Prop :=
  ∀ (s : State) (r : Request) (rest : List Event) (i : Instr),
    s.inputs = .request r :: rest → decode r = .ok i → step s = exec i { s with inputs := rest }

/-- 30_encoding.md §4 (D4; the model's choice to take the rule's effect and not the refusal that
93_implementation_defined.md advises, log entry 7): a reserved command changes no state, appends no record and answers
`BAD_COMMAND`, `rdata = 0` and an empty dump. -/
def Obligations.ReservedCommandAnswersBadCommandOnly : Prop :=
  ∀ (s : State) (r : Request) (rest : List Event),
    s.inputs = .request r :: rest →
    r.cmd ∉ ([0x00, 0x01, 0x02, 0x04, 0x05, 0x06, 0x10, 0x20, 0x21, 0x24, 0x25, 0x30, 0x31, 0x32, 0x33] : List Byte) →
    step s = .next { s with
      inputs := rest
      responses := s.responses ++ [{ status := .badCommand, rdata := 0, dump := [] }] }

/-- 10_state.md §6 and 20_memory.md §7 (D18, D25; the representation is log entry 6): a page-mapping change sets that
page's entry, leaves every other page's, and changes nothing else; it gets no response. -/
def Obligations.StepAppliesPageMappingChange : Prop :=
  ∀ (s : State) (vpn : Vpn) (e : Option PageEntry) (rest : List Event),
    s.inputs = .setPage vpn e :: rest →
    ∃ t, step s = .next t ∧ PageMap.entry t.pageMap vpn = e ∧
      (∀ j, j ≠ vpn → PageMap.entry t.pageMap j = PageMap.entry s.pageMap j) ∧
      t = { s with inputs := rest, pageMap := t.pageMap }

/-- 30_encoding.md §6 (D26; its placing in the input sequence is log entry 10): a pseudo-request is its XLATE and then, as
the very next step, its access at the physical address XLATE answered, with no input between the two. -/
def Obligations.PseudoRequestIsTranslationThenAccess : Prop :=
  ∀ (s : State) (p : Pseudo) (rest : List Event),
    s.inputs = .pseudo p :: rest →
    ∃ t u, exec (.xlate p.guest) { s with inputs := rest } = .next t ∧ step s = .next u ∧
      step u = exec (p.access (PageMap.translate s.pageMap p.guest)) t

/-- 60_exceptions.md §5 ("all state persists until reset") and log entry 3 (the model's choice of an idle step): with no
input left a step changes nothing. -/
def Obligations.StepWithoutInputChangesNothing : Prop := ∀ s : State, s.inputs = [] → step s = .next s

/-- 60_exceptions.md §1 ("Every request completes and returns a response") and 30_encoding.md §1 (D3): every request, with
any command and any operands, completes, is consumed and gets exactly one response. The second clause, that every state
has a next state, is more than those sections say: with no input left the spec gives no step, and that the idle step is a
next state is the model's choice (DESIGN CHOICE, log entry 3); that a page-mapping change is an element of the input
sequence is the model's too (log entries 2 and 6). -/
def Obligations.EveryRequestCompletesWithOneResponse : Prop :=
  (∀ (s : State) (r : Request) (rest : List Event), s.inputs = .request r :: rest →
    ∃ t resp, step s = .next t ∧ t.inputs = rest ∧ t.responses = s.responses ++ [resp]) ∧
  (∀ s : State, ∃ t, step s = .next t)

/-- 10_state.md R34: the parameters are fixed for the life of a block (that `State` holds them is log entry 5). -/
def Obligations.ParametersNeverChange : Prop := ∀ s t : State, step s = .next t → t.params = s.params

/-! ### The map, words and lanes -/

/-- 20_memory.md R43 with the ranges of R41. -/
def Obligations.RegionDispatchByAddressRange : Prop :=
  ∀ pa : Word,
    (region pa = .ram ↔ inRam pa = true) ∧ (region pa = .rom ↔ inRom pa = true) ∧
    (region pa = .spad ↔ inSpad pa = true) ∧ (region pa = .outOfRange ↔ outside pa = true)

/-- 20_memory.md §2 (R42, derived there) and 43_cache.md §1 ("the 8 words of one line are either all in one region or all
out of range"): two addresses of one 32-byte block are in the same region; an address and its word address are. -/
def Obligations.BlockLiesInOneRegion : Prop :=
  (∀ a b : Word, sameBlock a b → region a = region b) ∧ ∀ pa : Word, region (wordAddr pa) = region pa

/-- 20_memory.md §3 (R46 to R48; little-endian is D6, align-down D8): `MemRead` answers the word at index
`(w - base) >> 2` of RAM or ROM, four scratchpad bytes packed little-endian, or 0; and it is the four bytes at its
addresses. -/
def Obligations.MemReadIsTheContainingWord : Prop :=
  ∀ (s : State) (pa : Word),
    (inRam pa = true → s.memRead pa = s.ramWord ((wordAddr pa).toNat / 4)) ∧
    (inRom pa = true → s.memRead pa = s.romWord (((wordAddr pa).toNat - 0xBFC00000) / 4)) ∧
    (inSpad pa = true →
      let o := (wordAddr pa).toNat - 0x70000000
      s.memRead pa = (s.spadByte (o + 3) ++ s.spadByte (o + 2) ++ s.spadByte (o + 1) ++ s.spadByte o : BitVec (8 + 8 + 8 + 8))) ∧
    (outside pa = true → s.memRead pa = 0) ∧
    s.memRead pa = wordOf s pa

/-- 41_router.md R102: for every shift, `Extract` is bits `s + n - 1 : s` of the word, zero-extended; `Inject` replaces
exactly those bits, bits pushed above bit 31 being lost. -/
def Obligations.LaneExtractAndInjectAreBitFields : Prop :=
  ∀ (w v : Word) (s n : Nat), n = 8 ∨ n = 16 →
    (∀ i, (extractLane w s n).getLsbD i = (decide (i < n) && w.getLsbD (s + i))) ∧
    (∀ i, i < 32 → (injectLane w s n v).getLsbD i =
      if s ≤ i ∧ i < s + n then v.getLsbD (i - s) else w.getLsbD i)

/-! ### Router requests -/

/-- 41_router.md §2, RD32 (D8, D9, D11): the containing word in `rdata`, one record when out of range and logging is on,
and nothing else. -/
def Obligations.Rd32AnswersTheContainingWord : Prop :=
  ∀ (s : State) (pa : Word),
    exec (.rd32 pa) s = .next { s with
      log := recorded s (ifOutside .read pa 4)
      responses := s.responses ++ [{ status := .ok, rdata := wordOf s pa, dump := [] }] }

/-- 41_router.md §2, RD16 with 20_memory.md R52 (D7, D9, D11), for both values of `HALF_MASK`: with 0x2 the half-word at
`pa & ~1`; with 0x3 the bytes at `pa` and `pa + 1`, or byte 3 alone, zero-extended, when `pa & 3 = 3`. -/
def Obligations.Rd16AnswersTheHalfWordLane : Prop :=
  ∀ (s : State) (pa : Word),
    let h := if s.params.halfMask = .mask2 then pa &&& 0xFFFFFFFE#32 else pa
    let hi := if h.toNat % 4 = 3 then 0#8 else s.byteAt (h + 1)
    exec (.rd16 pa) s = .next { s with
      log := recorded s (ifOutside .read pa 2)
      responses := s.responses ++ [{ status := .ok, rdata := (hi ++ s.byteAt h).setWidth 32, dump := [] }] }

/-- 41_router.md §2, RD8 (D9, D11) and 20_memory.md §3 (D6): the byte at `pa`, zero-extended. -/
def Obligations.Rd8AnswersTheByte : Prop :=
  ∀ (s : State) (pa : Word),
    exec (.rd8 pa) s = .next { s with
      log := recorded s (ifOutside .read pa 1)
      responses := s.responses ++ [{ status := .ok, rdata := (s.byteAt pa).setWidth 32, dump := [] }] }

/-- 41_router.md §3, WR32 (D6, D8, D10, D11): in RAM and scratchpad the four bytes of the word that contains `pa` become
those of `wdata`, every other byte reads as before, nothing is written elsewhere; one record when out of range; neither
cache changes. -/
def Obligations.Wr32StoresTheContainingWord : Prop :=
  ∀ (s : State) (pa v : Word),
    ∃ t, exec (.wr32 pa v) s = .next t ∧
      (∀ a, t.byteAt a =
        if storable pa = true ∧ wordAddr a = wordAddr pa then v.extractLsb' (8 * (a.toNat % 4)) 8 else s.byteAt a) ∧
      t.log = recorded s (ifOutside .write pa 4) ∧ answersVoid s t ∧ sameCaches s t ∧ sameConfigRomAndControl s t

/-- 41_router.md §3, WR16 with 20_memory.md R52 (D6, D7, D9, D10, D11), for both values of `HALF_MASK`: the byte at the
lane's address `h` becomes `wdata[7:0]` and the next one `wdata[15:8]`, which is lost when `h & 3 = 3`; every other byte
reads as before. -/
def Obligations.Wr16StoresTheHalfWordLane : Prop :=
  ∀ (s : State) (pa v : Word),
    let h := if s.params.halfMask = .mask2 then pa &&& 0xFFFFFFFE#32 else pa
    ∃ t, exec (.wr16 pa v) s = .next t ∧
      (∀ a, t.byteAt a =
        if storable pa = true ∧ a = h then v.extractLsb' 0 8
        else if storable pa = true ∧ h.toNat % 4 ≠ 3 ∧ a = h + 1 then v.extractLsb' 8 8
        else s.byteAt a) ∧
      t.log = recorded s (ifOutside .write pa 2) ∧ answersVoid s t ∧ sameCaches s t ∧ sameConfigRomAndControl s t

/-- 41_router.md §3, WR8 (D6, D9, D10, D11): in RAM and scratchpad the byte at `pa` becomes `wdata[7:0]`; every other byte
reads as before. -/
def Obligations.Wr8StoresTheByte : Prop :=
  ∀ (s : State) (pa v : Word),
    ∃ t, exec (.wr8 pa v) s = .next t ∧
      (∀ a, t.byteAt a = if storable pa = true ∧ a = pa then v.extractLsb' 0 8 else s.byteAt a) ∧
      t.log = recorded s (ifOutside .write pa 1) ∧ answersVoid s t ∧ sameCaches s t ∧ sameConfigRomAndControl s t

/-- 41_router.md §4 (R109, derived there; the ROM half rests on D10): a word written is read back from every RAM and
scratchpad address; from a ROM address, and from one out of range, the old word is. -/
def Obligations.WordWriteThenReadRoundTrip : Prop :=
  ∀ (s : State) (pa v : Word),
    ∃ t, exec (.wr32 pa v) s = .next t ∧ readsAs (.rd32 pa) t (if storable pa = true then v else wordOf s pa)

/-- 20_memory.md §5 (R58, D10): a router write to a ROM address, and the router half of a write-through write to one, has
no effect on the stores, logs nothing and reports nothing. -/
def Obligations.RomWritesHaveNoEffect : Prop :=
  ∀ (s : State) (pa v : Word), inRom pa = true →
    (∀ i, i = .wr8 pa v ∨ i = .wr16 pa v ∨ i = .wr32 pa v →
      exec i s = .next { s with responses := s.responses ++ [{ status := .ok, rdata := 0, dump := [] }] }) ∧
    (∀ c, ∃ t, exec (writeOf c pa v) s = .next t ∧ sameStores s t ∧ t.rom = s.rom ∧ t.log = s.log ∧ answersVoid s t)

/-! ### Translator -/

/-- 42_translate.md R120 (D15, D16, D17): on a valid entry `base + va[11:0]` modulo 2^32 and nothing logged; on an absent
or invalid entry `va` itself and one record; no other state changes. -/
def Obligations.XlateAnswersMappedOrIdentity : Prop :=
  ∀ (s : State) (va : Word),
    (∀ base, mapped s va base →
      exec (.xlate va) s = .next { s with
        responses := s.responses ++
          [{ status := .ok, rdata := BitVec.ofNat 32 (base.toNat + va.toNat % 4096), dump := [] }] }) ∧
    ((∀ base, ¬ mapped s va base) →
      exec (.xlate va) s = .next { s with
        log := recorded s [{ op := .translationMiss, addr := va, size := 0 }]
        responses := s.responses ++ [{ status := .ok, rdata := va, dump := [] }] })

/-- 42_translate.md R121 and 20_memory.md R59: `Translate(va)` is the base of the valid entry of page `va[31:12]` plus
`va[11:0]`, and `va` otherwise; XLATE answers it; it depends only on `va` and the page mapping. -/
def Obligations.TranslateIsBasePlusPageOffset : Prop :=
  (∀ va : Word, va.toNat = (vpnOf va).toNat * 4096 + (pageOffset va).toNat ∧ (pageOffset va).toNat < 4096 ∧
    vpnOf va = va.extractLsb' 12 20) ∧
  (∀ (s : State) (va : Word),
    (∀ base, mapped s va base → PageMap.translate s.pageMap va = base + (va &&& 0xFFF#32)) ∧
    ((∀ base, ¬ mapped s va base) → PageMap.translate s.pageMap va = va) ∧
    readsAs (.xlate va) s (PageMap.translate s.pageMap va)) ∧
  (∀ (s t : State) (va : Word), s.pageMap = t.pageMap →
    PageMap.translate s.pageMap va = PageMap.translate t.pageMap va)

/-- 42_translate.md R124 (derived there): two guest addresses of one valid page translate to physical addresses that
differ exactly as their page offsets do, modulo 2^32 (D16). -/
def Obligations.SamePageAddressesKeepTheirDistance : Prop :=
  ∀ (s : State) (a b base : Word), mapped s a base → a.toNat / 4096 = b.toNat / 4096 →
    PageMap.translate s.pageMap a - PageMap.translate s.pageMap b = a - b

/-- 42_translate.md R122: no request, pseudo-request or idle step writes the page mapping; only the MMU-setup actor's
change does, and it changes nothing else but the input it is. -/
def Obligations.PageMappingIsChangedOnlyByTheMmuActor : Prop :=
  ∀ s t : State, step s = .next t → t.pageMap ≠ s.pageMap →
    ∃ vpn e rest, s.inputs = .setPage vpn e :: rest ∧ t = { s with inputs := rest, pageMap := t.pageMap }

/-- 70_reset_and_hazards.md §3 (R203, derived there): an XLATE right after a page-mapping change answers with the new
entry; the caches and the stores are untouched by both. -/
def Obligations.PageMappingChangeTakesEffectAtOnce : Prop :=
  ∀ (s : State) (va base : Word) (rest : List Event),
    s.inputs = .setPage (va.extractLsb' 12 20) (some { base := base, valid := true }) ::
      .request (encode (.xlate va)) :: rest →
    ∃ t u, step s = .next t ∧ step t = .next u ∧
      u.responses = s.responses ++ [{ status := .ok, rdata := base + (va &&& 0xFFF#32), dump := [] }] ∧
      sameCaches s u ∧ sameStores s u ∧ u.rom = s.rom

/-! ### Caches -/

/-- 43_cache.md R130: index, tag, offset and base in numbers and as bit fields; tag, index, offset and two zero bits
rebuild the word address; two addresses share a line exactly when they agree in bits 31:5, and conflict exactly when they
agree in bits 11:5 and differ in bits 31:12; bits 1:0 take part in none, so a cache request at `pa` is the one at
`pa & ~0x3` (but for the address in the record of an out-of-range write-through write, 41_router.md R101). -/
def Obligations.CacheAddressDecomposition : Prop :=
  (∀ pa : Word,
    (cacheIdx pa).toNat = pa.toNat / 32 % 128 ∧ (cacheTag pa).toNat = pa.toNat / (128 * 32) ∧
    (cacheOff pa).toNat = pa.toNat / 4 % 8 ∧ (lineBase pa).toNat = pa.toNat - pa.toNat % 32 ∧
    (cacheTag pa ++ cacheIdx pa ++ cacheOff pa ++ 0#2 : BitVec (20 + 7 + 3 + 2)) = wordAddr pa) ∧
  (∀ pa : Word, cacheIdx pa = idxBits pa ∧ cacheTag pa = tagBits pa ∧ cacheOff pa = slotBits pa ∧
    lineBase pa = blockAddr pa) ∧
  (∀ a b : Word, (cacheIdx a = cacheIdx b ∧ cacheTag a = cacheTag b) ↔ a.toNat / 32 = b.toNat / 32) ∧
  (∀ a b : Word, (cacheIdx a = cacheIdx b ∧ cacheTag a ≠ cacheTag b) ↔
    (a.toNat / 32 % 128 = b.toNat / 32 % 128 ∧ a.toNat / 4096 ≠ b.toNat / 4096)) ∧
  (∀ a b : Word, a.toNat / 4 = b.toNat / 4 →
    cacheIdx a = cacheIdx b ∧ cacheTag a = cacheTag b ∧ cacheOff a = cacheOff b ∧ lineBase a = lineBase b) ∧
  (∀ (s : State) (c : CacheSel) (pa v : Word),
    exec (readOf c pa) s = exec (readOf c (wordAddr pa)) s ∧
    (outside pa = false ∨ s.params.writePolicy = .cacheOnly →
      exec (writeOf c pa v) s = exec (writeOf c (wordAddr pa) v) s))

/-- 43_cache.md §2 (R134, R135) and R141 (derived there): a CRDD or CRDI that hits answers the word of the line and changes
nothing else: no cache field, no store, no record, even for an out-of-range block. -/
def Obligations.CacheReadHitOnlyAnswers : Prop :=
  ∀ (s : State) (c : CacheSel) (pa : Word), resident s c pa = true →
    exec (readOf c pa) s = .next { s with
      responses := s.responses ++ [{ status := .ok, rdata := (lineAt s c pa).word (slotBits pa), dump := [] }] }

/-- 43_cache.md §1 and §2 (R133 to R135; the records are D12): a CRDD or CRDI that misses makes the line at `pa[11:5]` the
block that contains `pa`, words 0 to 7 from the backing store, answers the backing store's word at `pa`, and logs eight
records in order when the block is out of range; every other line, the other instance and the stores are unchanged. -/
def Obligations.CacheReadMissFillsOneLine : Prop :=
  ∀ (s : State) (c : CacheSel) (pa : Word), resident s c pa = false →
    ∃ t, exec (readOf c pa) s = .next t ∧
      (lineAt t c pa).valid = true ∧ (lineAt t c pa).tag = tagBits pa ∧
      (∀ k : BitVec 3, (lineAt t c pa).word k = wordOf s (blockAddr pa + 4 * k.setWidth 32)) ∧
      sameOtherLines s t c pa ∧
      t.responses = s.responses ++ [{ status := .ok, rdata := wordOf s pa, dump := [] }] ∧
      t.log = recorded s (fillRecords pa) ∧ sameStores s t ∧ sameConfigRomAndControl s t

/-- 43_cache.md §3 (R136, which 93_implementation_defined.md §3 calls the spec's reading; R137 to R139, D13), under
`CacheOnly`: CWRD or CWRI writes its line and nothing else; nothing is logged, even out of range. -/
def Obligations.CacheOnlyWriteWritesItsLineAlone : Prop :=
  ∀ (s : State) (c : CacheSel) (pa v : Word), s.params.writePolicy = .cacheOnly →
    ∃ t, exec (writeOf c pa v) s = .next t ∧ writesLine s t c pa v ∧ answersVoid s t ∧ t.log = s.log ∧
      sameStores s t ∧ sameConfigRomAndControl s t

/-- 43_cache.md §3 (R136 to R139, D13, D14), under `WriteThrough`: CWRD or CWRI writes its line and then has exactly the
effect of WR32 at the same address and data. -/
def Obligations.WriteThroughWriteAlsoStoresTheWord : Prop :=
  ∀ (s : State) (c : CacheSel) (pa v : Word), s.params.writePolicy = .writeThrough →
    ∃ t u, exec (writeOf c pa v) s = .next t ∧ writesLine s t c pa v ∧ answersVoid s t ∧
      exec (.wr32 pa v) s = .next u ∧ t.log = u.log ∧ t.ram = u.ram ∧ t.spad = u.spad ∧
      (∀ a, t.byteAt a =
        if storable pa = true ∧ wordAddr a = wordAddr pa then v.extractLsb' (8 * (a.toNat % 4)) 8 else s.byteAt a) ∧
      sameConfigRomAndControl s t

/-- 70_reset_and_hazards.md §3 (R197, derived there), under either policy: after a write miss, a cache read of another
word of the block hits and answers the word the line held before. -/
def Obligations.WriteMissLeavesSevenStaleWords : Prop :=
  ∀ (s : State) (c : CacheSel) (pa v pb : Word), resident s c pa = false → sameBlock pa pb → slotBits pb ≠ slotBits pa →
    ∃ t, exec (writeOf c pa v) s = .next t ∧ resident t c pb = true ∧
      readsAs (readOf c pb) t ((lineAt s c pa).word (slotBits pb))

/-- 10_state.md R26: only CRDI and CWRI read or write the instruction cache, only CRDD and CWRD the data cache: any other
request leaves it unchanged and does the same whatever it holds. -/
def Obligations.CacheInstancesAreIndependent : Prop :=
  ∀ (i : Instr) (s : State),
    ((∀ pa, i ≠ .crdi pa) → (∀ pa v, i ≠ .cwri pa v) →
      ∃ t, exec i s = .next t ∧ t.icache = s.icache ∧
        ∀ k, exec i { s with icache := k } = .next { t with icache := k }) ∧
    ((∀ pa, i ≠ .crdd pa) → (∀ pa v, i ≠ .cwrd pa v) →
      ∃ t, exec i s = .next t ∧ t.dcache = s.dcache ∧
        ∀ k, exec i { s with dcache := k } = .next { t with dcache := k })

/-- 70_reset_and_hazards.md §3 (R195, derived there): after a WR8, WR16 or WR32 anywhere, a cache read of a resident line
answers the word the line held. -/
def Obligations.RouterWriteDoesNotReachAResidentLine : Prop :=
  ∀ (s : State) (c : CacheSel) (pa v pb : Word) (i : Instr), resident s c pb = true →
    i = .wr8 pa v ∨ i = .wr16 pa v ∨ i = .wr32 pa v →
    ∃ t, exec i s = .next t ∧ readsAs (readOf c pb) t ((lineAt s c pb).word (slotBits pb))

/-- 70_reset_and_hazards.md §3 (R196, R198, derived there), under `CacheOnly`: a cache write is seen by the next read of
the same instance, and by no router read, no dump and not by the other instance. -/
def Obligations.CacheOnlyWriteIsLocal : Prop :=
  ∀ (s : State) (c : CacheSel) (pa v : Word), s.params.writePolicy = .cacheOnly →
    ∃ t, exec (writeOf c pa v) s = .next t ∧ readsAs (readOf c pa) t v ∧
      (∀ pb, readsAs (.rd32 pb) t (wordOf s pb)) ∧
      (∀ d, d ≠ c → t.cache d = s.cache d) ∧
      (∀ start len, ∃ u w, exec (.dump start len) t = .next u ∧ exec (.dump start len) s = .next w ∧
        u.responses.getLast? = w.responses.getLast?)

/-- 43_cache.md §4 (R144, derived there): of two addresses with one index and different tags, reading the second evicts
the first, and reading the first again takes all eight words from the backing store. -/
def Obligations.ConflictingReadEvicts : Prop :=
  ∀ (s : State) (c : CacheSel) (a b : Word), idxBits a = idxBits b → tagBits a ≠ tagBits b →
    ∃ t u w, exec (readOf c a) s = .next t ∧ exec (readOf c b) t = .next u ∧
      resident u c a = false ∧ resident u c b = true ∧ exec (readOf c a) u = .next w ∧
      ∀ k : BitVec 3, (lineAt w c a).word k = wordOf s (blockAddr a + 4 * k.setWidth 32)

/-- 70_reset_and_hazards.md §3 (R204, derived there): a cache read of `a ^ 0x1000` and then of `a` answers the backing
store's word at `a`, from every state. -/
def Obligations.ConflictingReadRefreshesALine : Prop :=
  ∀ (s : State) (c : CacheSel) (a : Word),
    ∃ t, exec (readOf c (a ^^^ 0x1000#32)) s = .next t ∧ readsAs (readOf c a) t (wordOf s a)

/-- 43_cache.md §4 (R143, derived there): a line that holds the backing store's words keeps doing so through every
request that is not one of those R143 names; a cache read of it then answers the backing store's word. -/
def Obligations.CoherentLineStaysCoherent : Prop :=
  ∀ (s : State) (c : CacheSel) (pa : Word) (i : Instr), s.lineCoherent c pa → ¬ disturbs c pa i →
    ∃ t, exec i s = .next t ∧ t.lineCoherent c pa ∧ ∀ pb, sameBlock pa pb → readsAs (readOf c pb) t (wordOf t pb)

/-- 43_cache.md R140 with 70_reset_and_hazards.md §3 (R202, derived there), under `CacheOnly`: a word written by CWRD or
CWRI is lost when its line is replaced by a conflicting read: the next read of it answers the backing store's word. -/
def Obligations.EvictionDiscardsACacheOnlyWrite : Prop :=
  ∀ (s : State) (c : CacheSel) (a b v : Word), s.params.writePolicy = .cacheOnly →
    idxBits a = idxBits b → tagBits a ≠ tagBits b →
    ∃ t u, exec (writeOf c a v) s = .next t ∧ exec (readOf c b) t = .next u ∧ sameStores s u ∧ u.rom = s.rom ∧
      readsAs (readOf c a) u (wordOf s a)

/-- 70_reset_and_hazards.md §3 (R199, derived there): a successful LOADIMG does not reach a resident line. -/
def Obligations.LoadimgLeavesResidentLinesStale : Prop :=
  ∀ (s : State) (c : CacheSel) (pb : Word) (b : List Byte),
    resident s c pb = true → s.romLoaded = false → b.length = 4194304 →
    ∃ t, exec (.loadimg (some b)) s = .next t ∧ t.romLoaded = true ∧
      readsAs (readOf c pb) t ((lineAt s c pb).word (slotBits pb))

/-- 70_reset_and_hazards.md §3 (R200, derived there), under `WriteThrough`: a cache write to a ROM or out-of-range address
is dropped by the backing store and still held by the cache. -/
def Obligations.DroppedWriteThroughStillUpdatesTheCache : Prop :=
  ∀ (s : State) (c : CacheSel) (pa v : Word), s.params.writePolicy = .writeThrough → storable pa = false →
    ∃ t, exec (writeOf c pa v) s = .next t ∧ readsAs (readOf c pa) t v ∧ readsAs (.rd32 pa) t (wordOf s pa)

/-- 10_state.md §8 (R35, derived there): "Once a line is valid, nothing but reset makes it invalid again". -/
def Obligations.ValidBitsAreNeverCleared : Prop :=
  ∀ (s t : State) (c : CacheSel) (j : BitVec 7), step s = .next t →
    ((s.cache c).line j).valid = true → ((t.cache c).line j).valid = true

/-! ### Host and control -/

/-- 44_host_control.md §1 (R150, R151; D6, D22): the first LOADIMG with an image of exactly 4,194,304 bytes makes ROM word
`j` the little-endian packing of image bytes `4j` to `4j+3`, sets `rom_loaded`, answers `OK` and changes nothing else. -/
def Obligations.LoadimgReplacesTheWholeRom : Prop :=
  ∀ (s : State) (b : List Byte), s.romLoaded = false → b.length = 4194304 →
    ∃ t, exec (.loadimg (some b)) s = .next t ∧
      (∀ j, j < 2 ^ 20 → t.romWord j =
        (b.getD (4 * j + 3) 0 ++ b.getD (4 * j + 2) 0 ++ b.getD (4 * j + 1) 0 ++ b.getD (4 * j) 0 : BitVec (8 + 8 + 8 + 8))) ∧
      (∀ pa, t.byteAt pa = if inRom pa = true then b.getD (pa.toNat - 0xBFC00000) 0 else s.byteAt pa) ∧
      t.romLoaded = true ∧ answersVoid s t ∧ sameCaches s t ∧ sameStores s t ∧
      t = { s with rom := t.rom, romLoaded := true, responses := t.responses }

/-- 44_host_control.md §1 (R150, R152; D22; a second load takes the rule's effect, log entry 8): LOADIMG fails by status
alone when an image is already loaded, when the file could not be opened and when the size is wrong. -/
def Obligations.FailedLoadimgChangesNothing : Prop :=
  ∀ (s : State) (image : Image), s.romLoaded = true ∨ image = none ∨ (∃ b, image = some b ∧ b.length ≠ 4194304) →
    exec (.loadimg image) s = .next { s with
      responses := s.responses ++ [{ status := .imageLoadError, rdata := 0, dump := [] }] }

/-- 10_state.md R22 with 20_memory.md §5 (R58, D10) and 10_state.md §5 (R29, D22): only a successful LOADIMG changes ROM,
it is possible only while `rom_loaded` is 0, and `rom_loaded` is never cleared. -/
def Obligations.RomChangesOnlyByTheOneLoad : Prop :=
  ∀ s t : State, step s = .next t →
    (s.romLoaded = true → t.romLoaded = true ∧ t.rom = s.rom) ∧
    (t.rom ≠ s.rom ∨ t.romLoaded ≠ s.romLoaded → s.romLoaded = false ∧ t.romLoaded = true ∧
      ∃ r b rest, s.inputs = .request r :: rest ∧ decode r = .ok (.loadimg (some b)) ∧ b.length = 4194304)

/-- 44_host_control.md §2, LOGEN (D21): `log_enabled` becomes `sink_ok`, the status tells a failure, nothing else changes
and nothing is logged. -/
def Obligations.LogenSetsLogEnabled : Prop :=
  ∀ s : State,
    exec (.logen true) s = .next { s with
      logEnabled := true, responses := s.responses ++ [{ status := .ok, rdata := 0, dump := [] }] } ∧
    exec (.logen false) s = .next { s with
      logEnabled := false, responses := s.responses ++ [{ status := .logSinkError, rdata := 0, dump := [] }] }

/-- 44_host_control.md R154, LOGDIS. -/
def Obligations.LogdisClearsLogEnabled : Prop :=
  ∀ s : State,
    exec .logdis s = .next { s with
      logEnabled := false, responses := s.responses ++ [{ status := .ok, rdata := 0, dump := [] }] }

/-- 10_state.md R28: the log is append-only, in emission order, empty at reset, and no request reads it back: with another
log before it, a request appends the same records and does otherwise exactly the same. -/
def Obligations.LogIsAppendOnlyAndNeverReadBack : Prop :=
  (∀ s t : State, step s = .next t → ∃ rs, t.log = s.log ++ rs) ∧
  (∀ (i : Instr) (s : State), ∃ t rs, exec i s = .next t ∧ t.log = s.log ++ rs ∧
    ∀ l, exec i { s with log := l } = .next { t with log := l ++ rs }) ∧
  State.reset.log = []

/-- 60_exceptions.md R176: `LogAppend` appends one record when logging is enabled, keeps nothing when it is not, changes
nothing else, and a later LOGEN brings nothing back. -/
def Obligations.LogAppendIsGatedByLogEnabled : Prop :=
  ∀ (s : State) (op : LogOp) (a : Word) (n : Byte),
    (s.logEnabled = true → s.logAppend op a n = { s with log := s.log ++ [{ op := op, addr := a, size := n }] }) ∧
    (s.logEnabled = false → s.logAppend op a n = s) ∧
    (s.logEnabled = false → ∀ i, ∃ t u, exec i s = .next t ∧ exec (.logen true) t = .next u ∧ u.log = s.log)

/-- 44_host_control.md §3, DUMP (D19, D20; where `len = 0` and `start` is inside a word, the pseudocode is followed, log
entry 13): the entries are, in rising address order, exactly the word addresses from `start & ~3` on below
`min(start + len, 2^32)`, each with the backing store's word; records only with `DUMP_LOGS`; nothing else changes. -/
def Obligations.DumpListsTheWordsOfTheRange : Prop :=
  ∀ (s : State) (start len : Word),
    ∃ d : List (Word × Word),
      exec (.dump start len) s = .next { s with
        log := recorded s
          (if s.params.dumpLogs then
            (d.filter fun e => outside e.1).map fun e => { op := .read, addr := e.1, size := 4 }
          else [])
        responses := s.responses ++ [{ status := .ok, rdata := 0, dump := d }] } ∧
      d.Pairwise (fun e f => e.1.toNat < f.1.toNat) ∧ d.map Prod.fst = dumpWords start len ∧
      ∀ w x, (w, x) ∈ d ↔
        w.toNat % 4 = 0 ∧ start.toNat - start.toNat % 4 ≤ w.toNat ∧
          w.toNat < min (start.toNat + len.toNat) (2 ^ 32) ∧ x = wordOf s w

/-- 60_exceptions.md §3 (R177, R178, derived there; D11, D12, D17, D20): every instruction completes, and what it appends
to the log, in order, is what the tables of R177 and R178 give for it when logging is on, and nothing when it is off. -/
def Obligations.RecordsOfEveryRequest : Prop :=
  ∀ (i : Instr) (s : State), ∃ t, exec i s = .next t ∧
    t.log = recorded s (recordsOf i s)

/-- 60_exceptions.md §2 and §4 (R171, R181; D4, D5, D27): every condition a request meets is reported, and nothing is
reported without its condition: status 1, 2 and 3 exactly for `ImageLoadError`, `LogSinkError` and `BadCommand`; and, with
logging on, one read or write record for each `OutOfRange` and one miss record for each `TranslationMiss`. -/
def Obligations.EveryConditionIsReported : Prop :=
  ∀ (s : State) (r : Request) (rest : List Event), s.inputs = .request r :: rest →
    ∃ t resp rs, step s = .next t ∧ t.responses = s.responses ++ [resp] ∧ t.log = s.log ++ rs ∧
      (Status.code resp.status = 1 ↔ .imageLoadError ∈ requestConditions r s) ∧
      (Status.code resp.status = 2 ↔ .logSinkError ∈ requestConditions r s) ∧
      (Status.code resp.status = 3 ↔ .badCommand ∈ requestConditions r s) ∧
      (s.logEnabled = true →
        rs.countP (fun x => x.op ≠ .translationMiss) = (requestConditions r s).count .outOfRange ∧
        rs.countP (fun x => x.op = .translationMiss) = (requestConditions r s).count .translationMiss) ∧
      (s.logEnabled = false → rs = [])

/-! ### Reset and the invariant -/

/-- 70_reset_and_hazards.md §1 (R191, derived there; tag, data and `log_enabled` are D23): at reset every byte of the three
stores is 0, every line of both caches is invalid with tag and words 0, logging is off, the log is empty and no image is
loaded; the parameters are the defaults of 00_scope.md §3 (that reset has the defaults is the model's choice, log entry
5). -/
def Obligations.ResetStateValues : Prop :=
  (∀ pa, State.reset.byteAt pa = 0) ∧
  (∀ c j, ((State.reset.cache c).line j).valid = false ∧ ((State.reset.cache c).line j).tag = 0 ∧
    ∀ k, ((State.reset.cache c).line j).word k = 0) ∧
  State.reset.logEnabled = false ∧ State.reset.log = [] ∧ State.reset.romLoaded = false ∧
  State.reset.params = { writePolicy := .cacheOnly, halfMask := .mask2, dumpLogs := false }

/-- The invariant `State.wf` holds at reset. That the stores and the log are empty of anything to break it comes from
70_reset_and_hazards.md §1 (R191). The canonical form of the stores is the model's choice (DESIGN CHOICE, log entry 1), and
so are the canonical form of the page mapping and its being empty at reset, which the spec's reset does not touch (R192;
DESIGN CHOICE, log entry 6). -/
def Obligations.ResetStateIsWellFormed : Prop := State.reset.wf

/-- Every step keeps the invariant `State.wf`. From the spec: what a store holds lies inside its region (20_memory.md §2),
ROM is all zero until an image is loaded (10_state.md §2, §5), and every log record has a size its operation admits
(30_encoding.md §7). The model's own choice: the stores as canonical lists of byte cells (DESIGN CHOICE, log entry 1) and
the page mapping as a canonical list of pages of 20 bits (DESIGN CHOICE, log entry 6); the spec says nothing of canonical
lists. -/
def Obligations.EveryStepKeepsTheStateWellFormed : Prop := ∀ s t : State, s.wf → step s = .next t → t.wf
end

