-- ==== Sys2Proof/Laws/Decode.lean ====
section
/-! SUPPORT. Lemmas about the decoder. -/

namespace Sys2Proof

open Machine

/-- A command outside the fifteen is rejected by name (30_encoding.md R78, R80). -/
theorem decode_of_undefined {r : Request} (h : r.cmd ∉ definedCmds) : decode r = .error (.badCommand r.cmd) := by
  obtain ⟨c, a, w, l, im, sk⟩ := r
  change c ∉ definedCmds at h
  unfold decode
  simp only
  split <;> first | rfl | (exfalso; apply h; decide)

end Sys2Proof
end

