-- ==== Sys2Proof/Laws/Operands.lean ====
section
/-! SUPPORT. Lemmas about the operand forms: addresses as numbers, regions of neighbouring addresses, bytes and words. -/

namespace Sys2Proof.Machine

theorem alignWord_eq_shift (pa : Word) : alignWord pa = (pa >>> 2) <<< 2 := by
  unfold alignWord
  ext i hi
  have h3 : (3#32 : Word).getLsbD i = decide (i < 2) :=
    (by decide : ∀ j : Fin 32, (3#32 : Word).getLsbD j.1 = decide (j.1 < 2)) ⟨i, hi⟩
  simp only [← BitVec.getLsbD_eq_getElem, BitVec.getLsbD_and, BitVec.getLsbD_not, h3, BitVec.getLsbD_shiftLeft,
    BitVec.getLsbD_ushiftRight]
  by_cases h : i < 2
  · simp [h]
  · have : 2 + (i - 2) = i := by omega
    simp [h, hi, this]

theorem lineBase_eq_shift (pa : Word) : lineBase pa = (pa >>> 5) <<< 5 := by
  unfold lineBase
  ext i hi
  have h3 : (0x1F#32 : Word).getLsbD i = decide (i < 5) :=
    (by decide : ∀ j : Fin 32, (0x1F#32 : Word).getLsbD j.1 = decide (j.1 < 5)) ⟨i, hi⟩
  simp only [← BitVec.getLsbD_eq_getElem, BitVec.getLsbD_and, BitVec.getLsbD_not, h3, BitVec.getLsbD_shiftLeft,
    BitVec.getLsbD_ushiftRight]
  by_cases h : i < 5
  · simp [h]
  · have : 5 + (i - 5) = i := by omega
    simp [h, hi, this]

/-- The word address of an address, as a number. -/
theorem alignWord_toNat (pa : Word) : (alignWord pa).toNat = pa.toNat / 4 * 4 := by
  have := pa.isLt
  simp only [alignWord_eq_shift, BitVec.toNat_shiftLeft, BitVec.toNat_ushiftRight, Nat.shiftLeft_eq,
    Nat.shiftRight_eq_div_pow]
  omega

/-- The line address of an address, as a number. -/
theorem lineBase_toNat (pa : Word) : (lineBase pa).toNat = pa.toNat / 32 * 32 := by
  have := pa.isLt
  simp only [lineBase_eq_shift, BitVec.toNat_shiftLeft, BitVec.toNat_ushiftRight, Nat.shiftLeft_eq,
    Nat.shiftRight_eq_div_pow]
  omega

theorem cacheIdx_toNat (pa : Word) : (cacheIdx pa).toNat = pa.toNat / 32 % 128 := by
  simp [cacheIdx, BitVec.extractLsb'_toNat, Nat.shiftRight_eq_div_pow]

theorem cacheTag_toNat (pa : Word) : (cacheTag pa).toNat = pa.toNat / 4096 := by
  have := pa.isLt
  simp only [cacheTag, BitVec.extractLsb'_toNat, Nat.shiftRight_eq_div_pow]
  omega

theorem cacheOff_toNat (pa : Word) : (cacheOff pa).toNat = pa.toNat / 4 % 8 := by
  simp [cacheOff, BitVec.extractLsb'_toNat, Nat.shiftRight_eq_div_pow]

theorem vpnOf_toNat (va : Word) : (vpnOf va).toNat = va.toNat / 4096 := by
  have := va.isLt
  simp only [vpnOf, BitVec.extractLsb'_toNat, Nat.shiftRight_eq_div_pow]
  omega

theorem pageOffset_toNat (va : Word) : (pageOffset va).toNat = va.toNat % 4096 := by
  simp only [pageOffset, BitVec.toNat_and]
  exact Nat.and_two_pow_sub_one_eq_mod va.toNat 12

theorem and3_toNat (pa : Word) : (pa &&& 3#32).toNat = pa.toNat % 4 := by
  simp only [BitVec.toNat_and]
  exact Nat.and_two_pow_sub_one_eq_mod pa.toNat 2

/-- A word-aligned address is its own word address. -/
@[simp] theorem alignWord_idem (pa : Word) : alignWord (alignWord pa) = alignWord pa := by
  apply BitVec.eq_of_toNat_eq
  simp only [alignWord_toNat]
  omega

/-- The region of an address depends only on its 32-byte block (20_memory.md R42, 43_cache.md R133). -/
theorem region_eq_of_block {a b : Word} (h : a.toNat / 32 = b.toNat / 32) : region a = region b := by
  have hr : ∀ lo n : Nat, lo % 32 = 0 → n % 32 = 0 →
      ((lo ≤ a.toNat ∧ a.toNat < lo + n) ↔ (lo ≤ b.toNat ∧ b.toNat < lo + n)) := by
    intro lo n h1 h2; omega
  unfold region
  simp only [hr Config.ramBase Config.ramSize (by decide) (by decide),
    hr Config.romBase Config.romSize (by decide) (by decide),
    hr Config.spadBase Config.spadSize (by decide) (by decide)]

/-- 20_memory.md R42: an address and its word address are in the same region. -/
@[simp] theorem region_alignWord (pa : Word) : region (alignWord pa) = region pa := by
  apply region_eq_of_block
  rw [alignWord_toNat]
  omega

/-- The four address ranges of 20_memory.md R41 and R44, one of which holds. -/
theorem region_cases (pa : Word) :
    (region pa = .ram ∧ pa.toNat < 0x02000000) ∨
    (region pa = .rom ∧ 0xBFC00000 ≤ pa.toNat ∧ pa.toNat < 0xC0000000) ∨
    (region pa = .spad ∧ 0x70000000 ≤ pa.toNat ∧ pa.toNat < 0x70004000) ∨
    (region pa = .outOfRange ∧ 0x02000000 ≤ pa.toNat ∧
      (pa.toNat < 0x70000000 ∨ (0x70004000 ≤ pa.toNat ∧ pa.toNat < 0xBFC00000) ∨ 0xC0000000 ≤ pa.toNat)) := by
  have e1 : Config.ramBase + Config.ramSize = 0x02000000 := rfl
  have e2 : Config.romBase + Config.romSize = 0xC0000000 := rfl
  have e3 : Config.spadBase + Config.spadSize = 0x70004000 := rfl
  have b1 : Config.ramBase = 0 := rfl
  have b2 : Config.romBase = 0xBFC00000 := rfl
  have b3 : Config.spadBase = 0x70000000 := rfl
  by_cases h1 : Config.ramBase ≤ pa.toNat ∧ pa.toNat < Config.ramBase + Config.ramSize
  · exact .inl ⟨by rw [region, if_pos h1], by omega⟩
  · by_cases h2 : Config.romBase ≤ pa.toNat ∧ pa.toNat < Config.romBase + Config.romSize
    · exact .inr (.inl ⟨by rw [region, if_neg h1, if_pos h2], by omega⟩)
    · by_cases h3 : Config.spadBase ≤ pa.toNat ∧ pa.toNat < Config.spadBase + Config.spadSize
      · exact .inr (.inr (.inl ⟨by rw [region, if_neg h1, if_neg h2, if_pos h3], by omega⟩))
      · exact .inr (.inr (.inr ⟨by rw [region, if_neg h1, if_neg h2, if_neg h3], by omega⟩))

theorem region_eq_ram {pa : Word} : region pa = .ram ↔ pa.toNat < 0x02000000 := by
  rcases region_cases pa with ⟨h, _⟩ | ⟨h, _⟩ | ⟨h, _⟩ | ⟨h, _⟩ <;> simp [h] <;> omega

theorem region_eq_rom {pa : Word} : region pa = .rom ↔ 0xBFC00000 ≤ pa.toNat ∧ pa.toNat < 0xC0000000 := by
  rcases region_cases pa with ⟨h, _⟩ | ⟨h, _⟩ | ⟨h, _⟩ | ⟨h, _⟩ <;> simp [h] <;> omega

theorem region_eq_spad {pa : Word} : region pa = .spad ↔ 0x70000000 ≤ pa.toNat ∧ pa.toNat < 0x70004000 := by
  rcases region_cases pa with ⟨h, _⟩ | ⟨h, _⟩ | ⟨h, _⟩ | ⟨h, _⟩ <;> simp [h] <;> omega

/-- The block of line word `k` is the line's own. -/
theorem lineBase_add_toNat (pa : Word) {n : Nat} (hn : n < 32) :
    (lineBase pa + BitVec.ofNat 32 n).toNat = pa.toNat / 32 * 32 + n := by
  have := pa.isLt
  simp only [BitVec.toNat_add, lineBase_toNat, BitVec.toNat_ofNat]
  omega

/-- The eight words of a line are all in the region of its address (43_cache.md R133). -/
theorem region_lineBase_add (pa : Word) {n : Nat} (hn : n < 32) :
    region (lineBase pa + BitVec.ofNat 32 n) = region pa := by
  apply region_eq_of_block
  rw [lineBase_add_toNat pa hn]
  omega

/-- An address is its line's address plus four times its word offset, up to the low two bits (43_cache.md R130). -/
theorem alignWord_eq_lineBase_add (pa : Word) : alignWord pa = lineBase pa + 4 * (cacheOff pa).setWidth 32 := by
  apply BitVec.eq_of_toNat_eq
  have := pa.isLt
  have h4 : (4 : Word).toNat = 4 := rfl
  simp only [alignWord_toNat, BitVec.toNat_add, lineBase_toNat, BitVec.toNat_mul, BitVec.toNat_setWidth, cacheOff_toNat, h4]
  omega

/-- Two addresses are in the same block exactly when index and tag agree (43_cache.md R130). -/
theorem same_block_iff {a b : Word} :
    a.toNat / 32 = b.toNat / 32 ↔ cacheIdx a = cacheIdx b ∧ cacheTag a = cacheTag b := by
  rw [← BitVec.toNat_inj, ← BitVec.toNat_inj, cacheIdx_toNat, cacheIdx_toNat, cacheTag_toNat, cacheTag_toNat]
  omega

theorem lineBase_eq_of_block {a b : Word} (h : a.toNat / 32 = b.toNat / 32) : lineBase a = lineBase b := by
  apply BitVec.eq_of_toNat_eq
  simp only [lineBase_toNat, h]

/-- Bit `i` of a packed word. -/
theorem pack4_getLsbD (b0 b1 b2 b3 : Byte) (i : Nat) (hi : i < 32) :
    (pack4 b0 b1 b2 b3).getLsbD i =
      if i < 8 then b0.getLsbD i else if i < 16 then b1.getLsbD (i - 8)
      else if i < 24 then b2.getLsbD (i - 16) else b3.getLsbD (i - 24) := by
  have hz : ∀ (b : Byte) j, 8 ≤ j → b.getLsbD j = false := fun b j hj => BitVec.getLsbD_of_ge b j hj
  simp only [pack4, BitVec.getLsbD_or, BitVec.getLsbD_shiftLeft, BitVec.getLsbD_setWidth, hi, decide_true, Bool.true_and]
  by_cases h0 : i < 8
  · have h1 : i < 16 := by omega
    have h2 : i < 24 := by omega
    simp [h0, h1, h2]
  · by_cases h1 : i < 16
    · have h2 : i < 24 := by omega
      have h3 : i - 8 < 32 := by omega
      simp [h0, h1, h2, h3, hz b0 i (by omega)]
    · by_cases h2 : i < 24
      · have h3 : i - 8 < 32 := by omega
        have h4 : i - 16 < 32 := by omega
        simp [h0, h1, h2, h3, h4, hz b0 i (by omega), hz b1 (i - 8) (by omega)]
      · have h3 : i - 8 < 32 := by omega
        have h4 : i - 16 < 32 := by omega
        have h5 : i - 24 < 32 := by omega
        simp [h0, h1, h2, h3, h4, h5, hz b0 i (by omega), hz b1 (i - 8) (by omega), hz b2 (i - 16) (by omega)]

theorem byteOf_getLsbD (w : Word) (k i : Nat) : (byteOf w k).getLsbD i = (decide (i < 8) && w.getLsbD (8 * k + i)) := by
  simp [byteOf, BitVec.getLsbD_extractLsb']

/-- A packed word is the concatenation of its bytes (20_memory.md R47). -/
theorem pack4_eq_append (b0 b1 b2 b3 : Byte) : pack4 b0 b1 b2 b3 = (b3 ++ b2 ++ b1 ++ b0 : BitVec (8 + 8 + 8 + 8)) := by
  apply BitVec.eq_of_getLsbD_eq
  intro i hi
  rw [pack4_getLsbD b0 b1 b2 b3 i hi]
  simp only [BitVec.getLsbD_append]
  have e1 : i - 8 - 8 = i - 16 := by omega
  have e2 : i - 16 - 8 = i - 24 := by omega
  have c1 : (i - 8 < 8) = (i - 8 < 8) := rfl
  by_cases h0 : i < 8
  · simp [h0]
  · by_cases h1 : i < 16
    · have : i - 8 < 8 := by omega
      simp [h0, h1, this]
    · have n1 : ¬ i - 8 < 8 := by omega
      by_cases h2 : i < 24
      · have : i - 16 < 8 := by omega
        simp [h0, h1, h2, n1, e1, this]
      · have : ¬ i - 16 < 8 := by omega
        simp [h0, h1, h2, n1, e1, e2, this]

@[simp] theorem byteOf_pack4_0 (b0 b1 b2 b3 : Byte) : byteOf (pack4 b0 b1 b2 b3) 0 = b0 := by
  apply BitVec.eq_of_getLsbD_eq
  intro i hi
  rw [byteOf_getLsbD, pack4_getLsbD _ _ _ _ _ (by omega)]
  simp [hi]

@[simp] theorem byteOf_pack4_1 (b0 b1 b2 b3 : Byte) : byteOf (pack4 b0 b1 b2 b3) 1 = b1 := by
  apply BitVec.eq_of_getLsbD_eq
  intro i hi
  rw [byteOf_getLsbD, pack4_getLsbD _ _ _ _ _ (by omega)]
  have : 8 * 1 + i < 16 := by omega
  simp [hi]
  omega

@[simp] theorem byteOf_pack4_2 (b0 b1 b2 b3 : Byte) : byteOf (pack4 b0 b1 b2 b3) 2 = b2 := by
  apply BitVec.eq_of_getLsbD_eq
  intro i hi
  rw [byteOf_getLsbD, pack4_getLsbD _ _ _ _ _ (by omega)]
  rw [if_neg (by omega), if_neg (by omega), if_pos (by omega)]
  have : 8 * 2 + i - 16 = i := by omega
  simp [hi, this]

@[simp] theorem byteOf_pack4_3 (b0 b1 b2 b3 : Byte) : byteOf (pack4 b0 b1 b2 b3) 3 = b3 := by
  apply BitVec.eq_of_getLsbD_eq
  intro i hi
  rw [byteOf_getLsbD, pack4_getLsbD _ _ _ _ _ (by omega)]
  rw [if_neg (by omega), if_neg (by omega), if_neg (by omega)]
  have : 8 * 3 + i - 24 = i := by omega
  simp [hi, this]

/-- A word is the packing of its four bytes. -/
@[simp] theorem pack4_byteOf (w : Word) : pack4 (byteOf w 0) (byteOf w 1) (byteOf w 2) (byteOf w 3) = w := by
  apply BitVec.eq_of_getLsbD_eq
  intro i hi
  rw [pack4_getLsbD _ _ _ _ _ hi]
  simp only [byteOf_getLsbD]
  by_cases h0 : i < 8
  · simp [h0]
  · by_cases h1 : i < 16
    · have a1 : i - 8 < 8 := by omega
      have a2 : 8 + (i - 8) = i := by omega
      simp [h0, h1, a1, a2]
    · by_cases h2 : i < 24
      · have a1 : i - 16 < 8 := by omega
        have a2 : 16 + (i - 16) = i := by omega
        simp [h0, h1, h2, a1, a2]
      · have a1 : i - 24 < 8 := by omega
        have a2 : 24 + (i - 24) = i := by omega
        simp [h0, h1, h2, a1, a2]

/-- Two words with the same four bytes are equal. -/
theorem word_eq_of_bytes {v w : Word} (h : ∀ k < 4, byteOf v k = byteOf w k) : v = w := by
  rw [← pack4_byteOf v, ← pack4_byteOf w, h 0 (by omega), h 1 (by omega), h 2 (by omega), h 3 (by omega)]

/-- Bit `i` of a mask of `n` ones. -/
theorem laneOnes_getLsbD (n i : Nat) (hn : n ≤ 32) : (laneOnes n).getLsbD i = decide (i < n) := by
  simp only [laneOnes, BitVec.getLsbD_ofNat, Nat.testBit_two_pow_sub_one]
  by_cases h : i < n
  · simp [h]; omega
  · simp [h]

/-- Bit `i` of an extracted lane (41_router.md R102). -/
theorem extractLane_getLsbD (w : Word) (s n i : Nat) (hn : n ≤ 32) :
    (extractLane w s n).getLsbD i = (w.getLsbD (s + i) && decide (i < n)) := by
  simp only [extractLane, BitVec.getLsbD_and, BitVec.getLsbD_ushiftRight, laneOnes_getLsbD n i hn]

/-- Bit `i` of a word with a lane injected (41_router.md R102). -/
theorem injectLane_getLsbD (w v : Word) (s n i : Nat) (hn : n ≤ 32) (hi : i < 32) :
    (injectLane w s n v).getLsbD i =
      if s ≤ i ∧ i < s + n then v.getLsbD (i - s) else w.getLsbD i := by
  have h32 : decide (i < 32) = true := by simpa using hi
  simp only [injectLane, BitVec.getLsbD_or, BitVec.getLsbD_and, BitVec.getLsbD_not, BitVec.getLsbD_shiftLeft,
    laneOnes_getLsbD n (i - s) hn, h32, Bool.true_and]
  by_cases h1 : i < s
  · have : ¬ (s ≤ i ∧ i < s + n) := by omega
    simp [h1, this]
  · by_cases h2 : i < s + n
    · have a : s ≤ i ∧ i < s + n := by omega
      have b : i - s < n := by omega
      simp [h1, a, b]
    · have a : ¬ (s ≤ i ∧ i < s + n) := by omega
      have b : ¬ i - s < n := by omega
      simp [h1, a, b]

end Sys2Proof.Machine
end

