-- ==== Sys2Proof/Laws/State.lean ====
section
/-! SUPPORT. Beside State: what each update of the state leaves in each field, so that no later proof unfolds a record
update. -/

namespace Sys2Proof.Machine

variable (s : State)

section
variable (r : Response)
@[simp] theorem State.respond_params : (s.respond r).params = s.params := rfl
@[simp] theorem State.respond_pageMap : (s.respond r).pageMap = s.pageMap := rfl
@[simp] theorem State.respond_ram : (s.respond r).ram = s.ram := rfl
@[simp] theorem State.respond_rom : (s.respond r).rom = s.rom := rfl
@[simp] theorem State.respond_spad : (s.respond r).spad = s.spad := rfl
@[simp] theorem State.respond_icache : (s.respond r).icache = s.icache := rfl
@[simp] theorem State.respond_dcache : (s.respond r).dcache = s.dcache := rfl
@[simp] theorem State.respond_logEnabled : (s.respond r).logEnabled = s.logEnabled := rfl
@[simp] theorem State.respond_log : (s.respond r).log = s.log := rfl
@[simp] theorem State.respond_romLoaded : (s.respond r).romLoaded = s.romLoaded := rfl
@[simp] theorem State.respond_inputs : (s.respond r).inputs = s.inputs := rfl
@[simp] theorem State.respond_responses : (s.respond r).responses = s.responses ++ [r] := rfl
end

section
variable (b : Bool)
@[simp] theorem State.setLogEnabled_params : (s.setLogEnabled b).params = s.params := rfl
@[simp] theorem State.setLogEnabled_pageMap : (s.setLogEnabled b).pageMap = s.pageMap := rfl
@[simp] theorem State.setLogEnabled_ram : (s.setLogEnabled b).ram = s.ram := rfl
@[simp] theorem State.setLogEnabled_rom : (s.setLogEnabled b).rom = s.rom := rfl
@[simp] theorem State.setLogEnabled_spad : (s.setLogEnabled b).spad = s.spad := rfl
@[simp] theorem State.setLogEnabled_icache : (s.setLogEnabled b).icache = s.icache := rfl
@[simp] theorem State.setLogEnabled_dcache : (s.setLogEnabled b).dcache = s.dcache := rfl
@[simp] theorem State.setLogEnabled_logEnabled : (s.setLogEnabled b).logEnabled = b := rfl
@[simp] theorem State.setLogEnabled_log : (s.setLogEnabled b).log = s.log := rfl
@[simp] theorem State.setLogEnabled_romLoaded : (s.setLogEnabled b).romLoaded = s.romLoaded := rfl
@[simp] theorem State.setLogEnabled_inputs : (s.setLogEnabled b).inputs = s.inputs := rfl
@[simp] theorem State.setLogEnabled_responses : (s.setLogEnabled b).responses = s.responses := rfl
end

section
variable (b : List Byte)
@[simp] theorem State.loadRom_params : (s.loadRom b).params = s.params := rfl
@[simp] theorem State.loadRom_pageMap : (s.loadRom b).pageMap = s.pageMap := rfl
@[simp] theorem State.loadRom_ram : (s.loadRom b).ram = s.ram := rfl
@[simp] theorem State.loadRom_rom : (s.loadRom b).rom = Memory.ofBytes Config.romBase b := rfl
@[simp] theorem State.loadRom_spad : (s.loadRom b).spad = s.spad := rfl
@[simp] theorem State.loadRom_icache : (s.loadRom b).icache = s.icache := rfl
@[simp] theorem State.loadRom_dcache : (s.loadRom b).dcache = s.dcache := rfl
@[simp] theorem State.loadRom_logEnabled : (s.loadRom b).logEnabled = s.logEnabled := rfl
@[simp] theorem State.loadRom_log : (s.loadRom b).log = s.log := rfl
@[simp] theorem State.loadRom_romLoaded : (s.loadRom b).romLoaded = true := rfl
@[simp] theorem State.loadRom_inputs : (s.loadRom b).inputs = s.inputs := rfl
@[simp] theorem State.loadRom_responses : (s.loadRom b).responses = s.responses := rfl
end

section
variable (vpn : Vpn) (e : Option PageEntry)
@[simp] theorem State.mmuSetPage_params : (s.mmuSetPage vpn e).params = s.params := rfl
@[simp] theorem State.mmuSetPage_pageMap : (s.mmuSetPage vpn e).pageMap = PageMap.update s.pageMap vpn e := rfl
@[simp] theorem State.mmuSetPage_ram : (s.mmuSetPage vpn e).ram = s.ram := rfl
@[simp] theorem State.mmuSetPage_rom : (s.mmuSetPage vpn e).rom = s.rom := rfl
@[simp] theorem State.mmuSetPage_spad : (s.mmuSetPage vpn e).spad = s.spad := rfl
@[simp] theorem State.mmuSetPage_icache : (s.mmuSetPage vpn e).icache = s.icache := rfl
@[simp] theorem State.mmuSetPage_dcache : (s.mmuSetPage vpn e).dcache = s.dcache := rfl
@[simp] theorem State.mmuSetPage_logEnabled : (s.mmuSetPage vpn e).logEnabled = s.logEnabled := rfl
@[simp] theorem State.mmuSetPage_log : (s.mmuSetPage vpn e).log = s.log := rfl
@[simp] theorem State.mmuSetPage_romLoaded : (s.mmuSetPage vpn e).romLoaded = s.romLoaded := rfl
@[simp] theorem State.mmuSetPage_inputs : (s.mmuSetPage vpn e).inputs = s.inputs := rfl
@[simp] theorem State.mmuSetPage_responses : (s.mmuSetPage vpn e).responses = s.responses := rfl
end

section
variable (r : Request)
@[simp] theorem State.issueNext_params : (s.issueNext r).params = s.params := rfl
@[simp] theorem State.issueNext_pageMap : (s.issueNext r).pageMap = s.pageMap := rfl
@[simp] theorem State.issueNext_ram : (s.issueNext r).ram = s.ram := rfl
@[simp] theorem State.issueNext_rom : (s.issueNext r).rom = s.rom := rfl
@[simp] theorem State.issueNext_spad : (s.issueNext r).spad = s.spad := rfl
@[simp] theorem State.issueNext_icache : (s.issueNext r).icache = s.icache := rfl
@[simp] theorem State.issueNext_dcache : (s.issueNext r).dcache = s.dcache := rfl
@[simp] theorem State.issueNext_logEnabled : (s.issueNext r).logEnabled = s.logEnabled := rfl
@[simp] theorem State.issueNext_log : (s.issueNext r).log = s.log := rfl
@[simp] theorem State.issueNext_romLoaded : (s.issueNext r).romLoaded = s.romLoaded := rfl
@[simp] theorem State.issueNext_inputs : (s.issueNext r).inputs = .request r :: s.inputs := rfl
@[simp] theorem State.issueNext_responses : (s.issueNext r).responses = s.responses := rfl
end

section
variable (c : CacheSel) (k : Cache)
@[simp] theorem State.setCache_params : (s.setCache c k).params = s.params := by cases c <;> rfl
@[simp] theorem State.setCache_pageMap : (s.setCache c k).pageMap = s.pageMap := by cases c <;> rfl
@[simp] theorem State.setCache_ram : (s.setCache c k).ram = s.ram := by cases c <;> rfl
@[simp] theorem State.setCache_rom : (s.setCache c k).rom = s.rom := by cases c <;> rfl
@[simp] theorem State.setCache_spad : (s.setCache c k).spad = s.spad := by cases c <;> rfl
@[simp] theorem State.setCache_logEnabled : (s.setCache c k).logEnabled = s.logEnabled := by cases c <;> rfl
@[simp] theorem State.setCache_log : (s.setCache c k).log = s.log := by cases c <;> rfl
@[simp] theorem State.setCache_romLoaded : (s.setCache c k).romLoaded = s.romLoaded := by cases c <;> rfl
@[simp] theorem State.setCache_inputs : (s.setCache c k).inputs = s.inputs := by cases c <;> rfl
@[simp] theorem State.setCache_responses : (s.setCache c k).responses = s.responses := by cases c <;> rfl
end

/-- The selected cache after a replacement. -/
@[simp] theorem State.cache_setCache_self (c : CacheSel) (k : Cache) : (s.setCache c k).cache c = k := by
  cases c <;> rfl

/-- The other instance is untouched (10_state.md R26). -/
theorem State.cache_setCache_ne {c d : CacheSel} (h : d ≠ c) (k : Cache) : (s.setCache c k).cache d = s.cache d := by
  cases c <;> cases d <;> first | rfl | exact absurd rfl h

@[simp] theorem State.cache_respond (r : Response) (c : CacheSel) : (s.respond r).cache c = s.cache c := by
  cases c <;> rfl

/-- `LogAppend` (60_exceptions.md R176) as one update of the log. -/
theorem State.logAppend_eq (op : LogOp) (a : Word) (n : Byte) :
    s.logAppend op a n =
      { s with log := s.log ++ if s.logEnabled then [{ op := op, addr := a, size := n }] else [] } := by
  unfold State.logAppend
  by_cases h : s.logEnabled = true
  · rw [if_pos h, if_pos h]
  · rw [if_neg h, if_neg h, List.append_nil]

/-- Two states with the same fields are equal. -/
theorem State.ext_fields {s t : State} (h1 : s.params = t.params) (h2 : s.pageMap = t.pageMap) (h3 : s.ram = t.ram)
    (h4 : s.rom = t.rom) (h5 : s.spad = t.spad) (h6 : s.icache = t.icache) (h7 : s.dcache = t.dcache)
    (h8 : s.logEnabled = t.logEnabled) (h9 : s.log = t.log) (h10 : s.romLoaded = t.romLoaded)
    (h11 : s.inputs = t.inputs) (h12 : s.responses = t.responses) : s = t := by
  cases s
  cases t
  simp_all

end Sys2Proof.Machine
end

