-- ==== Sys2Proof/Laws/Store.lean ====
section
/-! SUPPORT. The laws of the sparse stores: read over write, the canonical form, words over bytes, images, pages and cache
lines. -/

namespace Sys2Proof.Machine

section Sparse
variable {α : Type}

@[simp] theorem sparseGet_erase_self (k : Nat) (l : List (Nat × α)) : sparseGet k (sparseErase k l) = none := by
  induction l with
  | nil => rfl
  | cons c l ih =>
    by_cases h : c.1 = k
    · simpa [sparseErase, h] using ih
    · simpa [sparseErase, h, sparseGet] using ih

theorem sparseGet_erase_ne {j k : Nat} (h : j ≠ k) (l : List (Nat × α)) :
    sparseGet j (sparseErase k l) = sparseGet j l := by
  induction l with
  | nil => rfl
  | cons c l ih =>
    by_cases hk : c.1 = k
    · have : c.1 ≠ j := by omega
      simpa [sparseErase, hk, sparseGet, Ne.symm h] using ih
    · by_cases hj : c.1 = j
      · simp [sparseErase, sparseGet, hj, h]
      · simpa [sparseErase, hk, sparseGet, hj] using ih

@[simp] theorem sparseGet_put_self (k : Nat) (v : α) (l : List (Nat × α)) : sparseGet k (sparsePut k v l) = some v := by
  induction l with
  | nil => simp [sparsePut, sparseGet]
  | cons c l ih =>
    by_cases h1 : k < c.1
    · simp [sparsePut, h1, sparseGet]
    · by_cases h2 : k = c.1
      · simp [sparsePut, h2, sparseGet]
      · simp [sparsePut, h1, h2, sparseGet, Ne.symm h2, ih]

theorem sparseGet_put_ne {j k : Nat} (h : j ≠ k) (v : α) (l : List (Nat × α)) :
    sparseGet j (sparsePut k v l) = sparseGet j l := by
  induction l with
  | nil => simp [sparsePut, sparseGet, Ne.symm h]
  | cons c l ih =>
    by_cases h1 : k < c.1
    · simp [sparsePut, h1, sparseGet, Ne.symm h]
    · by_cases h2 : k = c.1
      · subst h2
        simp [sparsePut, sparseGet, Ne.symm h]
      · by_cases hj : c.1 = j
        · simp only [sparsePut, if_neg h1, if_neg h2, sparseGet, if_pos hj]
        · simp [sparsePut, h1, h2, sparseGet, hj, ih]

/-- What is listed after a put was put or was listed before. -/
theorem mem_sparsePut {k : Nat} {v : α} {l : List (Nat × α)} {c : Nat × α} (h : c ∈ sparsePut k v l) :
    c = (k, v) ∨ c ∈ l := by
  induction l with
  | nil => simpa [sparsePut] using h
  | cons d l ih =>
    simp only [sparsePut] at h
    split at h
    · simpa using h
    · split at h
      · simp only [List.mem_cons] at h ⊢
        rcases h with h | h
        · exact .inl h
        · exact .inr (.inr h)
      · simp only [List.mem_cons] at h ⊢
        rcases h with h | h
        · exact .inr (.inl h)
        · rcases ih h with h | h
          · exact .inl h
          · exact .inr (.inr h)

theorem sparsePut_sorted {l : List (Nat × α)} (k : Nat) (v : α) (h : l.Pairwise (fun c d => c.1 < d.1)) :
    (sparsePut k v l).Pairwise (fun c d => c.1 < d.1) := by
  induction l with
  | nil => simp [sparsePut]
  | cons c l ih =>
    obtain ⟨h1, h2⟩ := List.pairwise_cons.mp h
    simp only [sparsePut]
    split
    · next hk =>
      refine List.pairwise_cons.mpr ⟨fun d hd => ?_, h⟩
      rcases List.mem_cons.mp hd with rfl | hd
      · exact hk
      · exact Nat.lt_trans hk (h1 d hd)
    · split
      · next hk =>
        subst hk
        exact List.pairwise_cons.mpr ⟨h1, h2⟩
      · refine List.pairwise_cons.mpr ⟨fun d hd => ?_, ih h2⟩
        rcases mem_sparsePut hd with rfl | hd
        · show c.1 < k
          omega
        · exact h1 d hd

theorem sparseErase_sorted {l : List (Nat × α)} (k : Nat) (h : l.Pairwise (fun c d => c.1 < d.1)) :
    (sparseErase k l).Pairwise (fun c d => c.1 < d.1) := h.filter _

theorem mem_of_mem_sparseErase {k : Nat} {l : List (Nat × α)} {c : Nat × α} (h : c ∈ sparseErase k l) : c ∈ l :=
  (List.mem_filter.mp h).1

end Sparse

section Bytes
variable (m : Memory) (a : Nat) (b : Byte)

@[simp] theorem Memory.read_nil : Memory.read [] a = 0 := rfl

@[simp] theorem Memory.read_write_self : Memory.read (Memory.write m a b) a = b := by
  unfold Memory.write Memory.read
  split
  · next h => simp [h]
  · simp

theorem Memory.read_write_ne {c : Nat} (h : c ≠ a) : Memory.read (Memory.write m a b) c = Memory.read m c := by
  unfold Memory.write Memory.read
  split
  · rw [sparseGet_erase_ne h]
  · rw [sparseGet_put_ne h]

/-- A byte write, read back anywhere. -/
theorem Memory.read_write (c : Nat) :
    Memory.read (Memory.write m a b) c = if c = a then b else Memory.read m c := by
  split
  · next h => rw [h, Memory.read_write_self]
  · next h => exact Memory.read_write_ne m a b h

/-- A byte write keeps the canonical form. -/
theorem Memory.write_wf (h : Memory.wf m) : Memory.wf (Memory.write m a b) := by
  unfold Memory.write
  split
  · exact ⟨sparseErase_sorted a h.1, fun c hc => h.2 c (mem_of_mem_sparseErase hc)⟩
  · next hb =>
    refine ⟨sparsePut_sorted a b h.1, fun c hc => ?_⟩
    rcases mem_sparsePut hc with rfl | hc
    · exact hb
    · exact h.2 c hc

/-- A byte write inside a region keeps the store inside it. -/
theorem Memory.write_within {lo n : Nat} (h : Memory.within m lo n) (ha : lo ≤ a ∧ a < lo + n) :
    Memory.within (Memory.write m a b) lo n := by
  unfold Memory.write
  split
  · exact fun c hc => h c (mem_of_mem_sparseErase hc)
  · intro c hc
    rcases mem_sparsePut hc with rfl | hc
    · exact ha
    · exact h c hc

end Bytes

section Words
variable (m : Memory) (w : Nat) (v : Word)

/-- A word write, read back as bytes anywhere (20_memory.md R47). -/
theorem Memory.read_writeWord (c : Nat) :
    Memory.read (Memory.writeWord m w v) c =
      if w ≤ c ∧ c < w + 4 then byteOf v (c - w) else Memory.read m c := by
  unfold Memory.writeWord
  simp only [Memory.read_write]
  by_cases h3 : c = w + 3
  · subst h3
    have : w ≤ w + 3 ∧ w + 3 < w + 4 := by omega
    simp [this]
  · by_cases h2 : c = w + 2
    · subst h2
      have : w ≤ w + 2 ∧ w + 2 < w + 4 := by omega
      simp [this]
    · by_cases h1 : c = w + 1
      · subst h1
        have : w ≤ w + 1 ∧ w + 1 < w + 4 := by omega
        simp [this]
      · by_cases h0 : c = w
        · subst h0
          simp
        · have : ¬ (w ≤ c ∧ c < w + 4) := by omega
          simp [h0, h1, h2, h3, this]

@[simp] theorem Memory.readWord_writeWord_self : Memory.readWord (Memory.writeWord m w v) w = v := by
  unfold Memory.readWord
  simp only [Memory.read_writeWord]
  have e0 : w ≤ w ∧ w < w + 4 := by omega
  have e1 : w ≤ w + 1 ∧ w + 1 < w + 4 := by omega
  have e2 : w ≤ w + 2 ∧ w + 2 < w + 4 := by omega
  have e3 : w ≤ w + 3 ∧ w + 3 < w + 4 := by omega
  simp [e0, e1, e2, e3]

theorem Memory.readWord_writeWord_ne {c : Nat} (h : c + 4 ≤ w ∨ w + 4 ≤ c) :
    Memory.readWord (Memory.writeWord m w v) c = Memory.readWord m c := by
  have hr : ∀ k < 4, Memory.read (Memory.writeWord m w v) (c + k) = Memory.read m (c + k) := by
    intro k hk
    have : ¬ (w ≤ c + k ∧ c + k < w + 4) := by omega
    rw [Memory.read_writeWord, if_neg this]
  have h0 := hr 0 (by omega)
  have h1 := hr 1 (by omega)
  have h2 := hr 2 (by omega)
  have h3 := hr 3 (by omega)
  unfold Memory.readWord
  rw [Nat.add_zero] at h0
  rw [h0, h1, h2, h3]

theorem Memory.writeWord_wf (h : Memory.wf m) : Memory.wf (Memory.writeWord m w v) :=
  Memory.write_wf _ _ _ (Memory.write_wf _ _ _ (Memory.write_wf _ _ _ (Memory.write_wf _ _ _ h)))

theorem Memory.writeWord_within {lo n : Nat} (h : Memory.within m lo n) (hw : lo ≤ w ∧ w + 4 ≤ lo + n) :
    Memory.within (Memory.writeWord m w v) lo n :=
  Memory.write_within _ _ _ (Memory.write_within _ _ _ (Memory.write_within _ _ _ (Memory.write_within _ _ _ h
    (by omega)) (by omega)) (by omega)) (by omega)

/-- Byte `k` of a word read is the byte at its address (20_memory.md R47). -/
theorem Memory.byteOf_readWord {k : Nat} (hk : k < 4) : byteOf (Memory.readWord m w) k = Memory.read m (w + k) := by
  have : k = 0 ∨ k = 1 ∨ k = 2 ∨ k = 3 := by omega
  unfold Memory.readWord
  rcases this with rfl | rfl | rfl | rfl <;> simp

end Words

section Images

theorem Memory.mem_ofBytes {base : Nat} {b : List Byte} {c : Nat × Byte} (h : c ∈ Memory.ofBytes base b) :
    base ≤ c.1 ∧ c.1 < base + b.length ∧ c.2 ≠ Memory.unlisted := by
  simp only [Memory.ofBytes, List.mem_filter, List.mem_map, decide_eq_true_eq] at h
  obtain ⟨⟨d, hd, rfl⟩, hne⟩ := h
  have hm := List.mem_zipIdx hd
  exact ⟨hm.1, by omega, hne⟩

theorem Memory.ofBytes_cons (base : Nat) (x : Byte) (b : List Byte) :
    Memory.ofBytes base (x :: b) =
      if x = Memory.unlisted then Memory.ofBytes (base + 1) b else (base, x) :: Memory.ofBytes (base + 1) b := by
  by_cases h : x = Memory.unlisted
  · simp [Memory.ofBytes, h]
  · simp [Memory.ofBytes, h]

theorem sparseGet_eq_none_of_lt {α : Type} {k : Nat} {l : List (Nat × α)} (h : ∀ c ∈ l, k < c.1) :
    sparseGet k l = none := by
  induction l with
  | nil => rfl
  | cons c l ih =>
    have h1 := h c (List.mem_cons_self)
    have : c.1 ≠ k := by omega
    simp only [sparseGet, this, if_false]
    exact ih fun d hd => h d (List.mem_cons_of_mem _ hd)

/-- Byte `i` of a store made from an image is byte `i` of the image (44_host_control.md R151). -/
theorem Memory.read_ofBytes (base : Nat) (b : List Byte) (i : Nat) :
    Memory.read (Memory.ofBytes base b) (base + i) = b.getD i 0 := by
  induction b generalizing base i with
  | nil => rfl
  | cons x b ih =>
    rw [Memory.ofBytes_cons]
    cases i with
    | zero =>
      have hn : Memory.read (Memory.ofBytes (base + 1) b) base = 0 := by
        rw [Memory.read, sparseGet_eq_none_of_lt]
        · rfl
        · intro c hc
          have := Memory.mem_ofBytes hc
          omega
      split
      · next h => simpa [h, Memory.unlisted] using hn
      · simp [Memory.read, sparseGet]
    | succ i =>
      have e : base + (i + 1) = base + 1 + i := by omega
      have hne : base ≠ base + 1 + i := by omega
      rw [e]
      split
      · simpa using ih (base + 1) i
      · rw [Memory.read, sparseGet, if_neg hne, ← Memory.read]
        simpa using ih (base + 1) i

theorem Memory.ofBytes_wf (base : Nat) (b : List Byte) : Memory.wf (Memory.ofBytes base b) := by
  refine ⟨?_, fun c hc => (Memory.mem_ofBytes hc).2.2⟩
  induction b generalizing base with
  | nil => exact List.Pairwise.nil
  | cons x b ih =>
    rw [Memory.ofBytes_cons]
    split
    · exact ih (base + 1)
    · refine List.pairwise_cons.mpr ⟨fun c hc => ?_, ih (base + 1)⟩
      have := Memory.mem_ofBytes hc
      show base < c.1
      omega

theorem Memory.ofBytes_within (base : Nat) (b : List Byte) : Memory.within (Memory.ofBytes base b) base b.length :=
  fun _ hc => ⟨(Memory.mem_ofBytes hc).1, (Memory.mem_ofBytes hc).2.1⟩

end Images

section Pages
variable (m : PageMap) (vpn : Vpn) (e : Option PageEntry)

@[simp] theorem PageMap.entry_update_self : PageMap.entry (PageMap.update m vpn e) vpn = e := by
  cases e <;> simp [PageMap.entry, PageMap.update]

theorem PageMap.entry_update_ne {j : Vpn} (h : j ≠ vpn) :
    PageMap.entry (PageMap.update m vpn e) j = PageMap.entry m j := by
  have hn : j.toNat ≠ vpn.toNat := fun h' => h (BitVec.eq_of_toNat_eq h')
  cases e with
  | none => exact sparseGet_erase_ne hn m
  | some p => exact sparseGet_put_ne hn p m

theorem PageMap.update_wf (h : PageMap.wf m) : PageMap.wf (PageMap.update m vpn e) := by
  cases e with
  | none => exact ⟨sparseErase_sorted _ h.1, fun c hc => h.2 c (mem_of_mem_sparseErase hc)⟩
  | some p =>
    refine ⟨sparsePut_sorted _ p h.1, fun c hc => ?_⟩
    rcases mem_sparsePut hc with rfl | hc
    · exact vpn.isLt
    · exact h.2 c hc

end Pages

section Lines
variable (c : Cache) (i : BitVec 7) (l : Line)

@[simp] theorem Cache.line_setLine_self : (c.setLine i l).line i = l := by
  simp [Cache.line, Cache.setLine]

theorem Cache.line_setLine_ne {j : BitVec 7} (h : j ≠ i) : (c.setLine i l).line j = c.line j := by
  have hn : i.toNat ≠ j.toNat := fun h' => h (BitVec.eq_of_toNat_eq h').symm
  simp [Cache.line, Cache.setLine, hn]

theorem Cache.line_setLine (j : BitVec 7) : (c.setLine i l).line j = if j = i then l else c.line j := by
  split
  · next h => rw [h, Cache.line_setLine_self]
  · next h => exact Cache.line_setLine_ne c i l h

/-- Two caches with the same lines are equal. -/
theorem Cache.ext_line {c d : Cache} (h : ∀ i, c.line i = d.line i) : c = d := by
  cases c with
  | mk a =>
    cases d with
    | mk b =>
      congr 1
      apply Vector.ext
      intro i hi
      have := h (BitVec.ofNat 7 i)
      have e : (BitVec.ofNat 7 i).toNat = i := by
        rw [BitVec.toNat_ofNat]
        exact Nat.mod_eq_of_lt hi
      simpa [Cache.line, e] using this

variable (k : BitVec 3) (v : Word)

@[simp] theorem Line.word_setWord_self : (l.setWord k v).word k = v := by
  simp [Line.word, Line.setWord]

theorem Line.word_setWord_ne {j : BitVec 3} (h : j ≠ k) : (l.setWord k v).word j = l.word j := by
  have hn : k.toNat ≠ j.toNat := fun h' => h (BitVec.eq_of_toNat_eq h').symm
  simp [Line.word, Line.setWord, hn]

theorem Line.word_setWord (j : BitVec 3) : (l.setWord k v).word j = if j = k then v else l.word j := by
  split
  · next h => rw [h, Line.word_setWord_self]
  · next h => exact Line.word_setWord_ne l k v h

/-- The words of a line do not depend on its tag and valid bit. -/
@[simp] theorem Line.word_mk_data (l : Line) (t : BitVec 20) (b : Bool) :
    Line.word { l with tag := t, valid := b } k = l.word k := rfl

end Lines

end Sys2Proof.Machine
end

