-- ==== Sys2Proof/Laws/Ops.lean ====
section
/-! SUPPORT. One lemma per shared operation that says all it does, as an equation between states, and what can be read from
the backing store after it. The provers cite these instead of unfolding the operations. -/

namespace Sys2Proof.Machine

variable (s : State)

/-- Whether a record for an access at `pa` is emitted: logging is on and the word is in no region. -/
abbrev State.reports (s : State) (pa : Word) : Bool := s.logEnabled && decide (region pa = .outOfRange)

theorem State.reportOutOfRange_eq (op : LogOp) (pa : Word) (n : Byte) :
    s.reportOutOfRange op pa n =
      { s with log := s.log ++ if s.reports pa then [{ op := op, addr := pa, size := n }] else [] } := by
  unfold State.reportOutOfRange State.reports
  rw [region_alignWord]
  by_cases h : region pa = .outOfRange
  · rw [if_pos h, State.logAppend_eq]
    simp [h]
  · rw [if_neg h]
    simp [h]

/-- The reports of a sequence of accesses, in order. -/
theorem State.foldReport_eq (op : LogOp) (n : Byte) (l : List Word) :
    l.foldl (fun t a => t.reportOutOfRange op a n) s =
      { s with
        log := s.log ++
          if s.logEnabled then
            (l.filter fun a => region a = .outOfRange).map fun a => { op := op, addr := a, size := n }
          else [] } := by
  induction l generalizing s with
  | nil => simp
  | cons a l ih =>
    rw [List.foldl_cons, ih, State.reportOutOfRange_eq]
    cases hl : s.logEnabled <;> by_cases hr : region a = .outOfRange <;> simp [State.reports, hl, hr]

/-- `MemWrite` (20_memory.md R49) as one update of RAM and scratchpad. -/
theorem State.memWrite_eq (pa v : Word) :
    s.memWrite pa v =
      { s with
        ram := if region pa = .ram then Memory.writeWord s.ram (alignWord pa).toNat v else s.ram
        spad := if region pa = .spad then Memory.writeWord s.spad (alignWord pa).toNat v else s.spad } := by
  unfold State.memWrite
  rw [region_alignWord]
  cases h : region pa <;> simp

/-- What is read depends on the three stores alone. -/
theorem State.memRead_congr {s t : State} (h1 : s.ram = t.ram) (h2 : s.rom = t.rom) (h3 : s.spad = t.spad) (pa : Word) :
    s.memRead pa = t.memRead pa := by
  unfold State.memRead
  rw [h1, h2, h3]

theorem State.byteAt_congr {s t : State} (h1 : s.ram = t.ram) (h2 : s.rom = t.rom) (h3 : s.spad = t.spad) (pa : Word) :
    s.byteAt pa = t.byteAt pa := by
  unfold State.byteAt
  rw [h1, h2, h3]

/-- A read reaches the containing word (20_memory.md R51). -/
@[simp] theorem State.memRead_alignWord (pa : Word) : s.memRead (alignWord pa) = s.memRead pa := by
  unfold State.memRead
  rw [alignWord_idem]

theorem State.memRead_eq_of_word {pa pb : Word} (h : alignWord pa = alignWord pb) : s.memRead pa = s.memRead pb := by
  rw [← State.memRead_alignWord, h, State.memRead_alignWord]

/-- The address of byte `k` of the word that contains `pa`. -/
theorem alignWord_add_toNat (pa : Word) {k : Nat} (hk : k < 4) :
    (alignWord pa + BitVec.ofNat 32 k).toNat = pa.toNat / 4 * 4 + k := by
  have := pa.isLt
  simp only [BitVec.toNat_add, alignWord_toNat, BitVec.toNat_ofNat]
  omega

theorem region_alignWord_add (pa : Word) {k : Nat} (hk : k < 4) :
    region (alignWord pa + BitVec.ofNat 32 k) = region pa := by
  apply region_eq_of_block
  rw [alignWord_add_toNat pa hk]
  omega

/-- Byte `k` of the word read is the byte at its address (20_memory.md R47). -/
theorem State.byteOf_memRead (pa : Word) {k : Nat} (hk : k < 4) :
    byteOf (s.memRead pa) k = s.byteAt (alignWord pa + BitVec.ofNat 32 k) := by
  have e : (alignWord pa + BitVec.ofNat 32 k).toNat = (alignWord pa).toNat + k := by
    rw [alignWord_add_toNat pa hk, alignWord_toNat]
  unfold State.memRead State.byteAt
  rw [region_alignWord_add pa hk, region_alignWord, e]
  cases region pa <;> simp only [Memory.byteOf_readWord _ _ hk]
  have : k = 0 ∨ k = 1 ∨ k = 2 ∨ k = 3 := by omega
  rcases this with rfl | rfl | rfl | rfl <;> rfl

/-- A byte of the store is its lane of the containing word. -/
theorem State.byteAt_eq_byteOf (pa : Word) : s.byteAt pa = byteOf (s.memRead pa) (pa.toNat % 4) := by
  have hk : pa.toNat % 4 < 4 := Nat.mod_lt _ (by omega)
  rw [State.byteOf_memRead s pa hk]
  congr 1
  apply BitVec.eq_of_toNat_eq
  rw [alignWord_add_toNat pa hk]
  omega

/-- A word write, read back as bytes anywhere: the bytes of the word when it is in RAM or scratchpad, else as before. -/
theorem State.byteAt_memWrite (pa v a : Word) :
    (s.memWrite pa v).byteAt a =
      if (region pa = .ram ∨ region pa = .spad) ∧ alignWord a = alignWord pa then byteOf v (a.toNat % 4)
      else s.byteAt a := by
  rw [State.memWrite_eq]
  have key : alignWord a = alignWord pa ↔
      (alignWord pa).toNat ≤ a.toNat ∧ a.toNat < (alignWord pa).toNat + 4 := by
    rw [← BitVec.toNat_inj, alignWord_toNat, alignWord_toNat]
    omega
  have hsub : alignWord a = alignWord pa → a.toNat - (alignWord pa).toNat = a.toNat % 4 := by
    intro h
    rw [← h, alignWord_toNat]
    omega
  have hreg : alignWord a = alignWord pa → region a = region pa := by
    intro h
    rw [← region_alignWord a, h, region_alignWord]
  unfold State.byteAt
  by_cases h : alignWord a = alignWord pa
  · rw [hreg h]
    cases hp : region pa <;> simp [h, Memory.read_writeWord, key.mp h, hsub h]
  · have h' : ¬ ((alignWord pa).toNat ≤ a.toNat ∧ a.toNat < (alignWord pa).toNat + 4) := fun h2 => h (key.mpr h2)
    have hr : ∀ m : Memory, Memory.read (Memory.writeWord m (alignWord pa).toNat v) a.toNat = Memory.read m a.toNat :=
      fun m => by rw [Memory.read_writeWord, if_neg h']
    cases hp : region pa <;> cases ha : region a <;> simp [h, hr]

/-- A word write, read back as words anywhere (20_memory.md R63). -/
theorem State.memRead_memWrite (pa v a : Word) :
    (s.memWrite pa v).memRead a =
      if (region pa = .ram ∨ region pa = .spad) ∧ alignWord a = alignWord pa then v else s.memRead a := by
  apply word_eq_of_bytes
  intro k hk
  rw [State.byteOf_memRead _ _ hk, State.byteAt_memWrite]
  have e1 : alignWord (alignWord a + BitVec.ofNat 32 k) = alignWord a := by
    apply BitVec.eq_of_toNat_eq
    rw [alignWord_toNat, alignWord_add_toNat a hk, alignWord_toNat]
    omega
  have e2 : (alignWord a + BitVec.ofNat 32 k).toNat % 4 = k := by
    rw [alignWord_add_toNat a hk]
    omega
  rw [e1, e2]
  split
  · rfl
  · rw [State.byteOf_memRead _ _ hk]

/-- An out-of-range word reads as 0 (20_memory.md R44). -/
theorem State.memRead_outOfRange {pa : Word} (h : region pa = .outOfRange) : s.memRead pa = 0 := by
  unfold State.memRead
  rw [region_alignWord, h]

/-- A router read as one update of the log and the responses (41_router.md R103 to R105). -/
theorem State.routerRead_eq (pa : Word) (n : Byte) (lane : Word → Word) :
    s.routerRead pa n lane =
      { s with
        log := s.log ++ if s.reports pa then [{ op := .read, addr := pa, size := n }] else []
        responses := s.responses ++ [{ rdata := lane (s.memRead pa) }] } := by
  unfold State.routerRead
  rw [State.reportOutOfRange_eq]
  rfl

/-- A router write as a report followed by a `MemWrite` of the old state's composed word (41_router.md R106 to R108). -/
theorem State.routerWrite_eq (pa : Word) (n : Byte) (compose : Word → Word) :
    s.routerWrite pa n compose =
      { s.memWrite pa (compose (s.memRead pa)) with
        log := s.log ++ if s.reports pa then [{ op := .write, addr := pa, size := n }] else [] } := by
  unfold State.routerWrite
  rw [State.reportOutOfRange_eq]
  have e : ∀ x, State.memRead { s with log := x } pa = s.memRead pa := fun x => rfl
  simp only [e, State.memWrite_eq]

/-- The line that `LineFill` leaves (43_cache.md R133). -/
def State.filledLine (s : State) (pa : Word) : Line :=
  { tag := cacheTag pa
    data := #v[s.memRead (lineBase pa), s.memRead (lineBase pa + 4), s.memRead (lineBase pa + 8),
               s.memRead (lineBase pa + 12), s.memRead (lineBase pa + 16), s.memRead (lineBase pa + 20),
               s.memRead (lineBase pa + 24), s.memRead (lineBase pa + 28)]
    valid := true }

/-- Word `k` of a filled line is the word of the block (43_cache.md R133). -/
theorem State.filledLine_word (pa : Word) (k : BitVec 3) :
    (s.filledLine pa).word k = s.memRead (lineBase pa + 4 * k.setWidth 32) := by
  have : ∀ j : BitVec 3, j = 0#3 ∨ j = 1#3 ∨ j = 2#3 ∨ j = 3#3 ∨ j = 4#3 ∨ j = 5#3 ∨ j = 6#3 ∨ j = 7#3 := by decide
  rcases this k with rfl | rfl | rfl | rfl | rfl | rfl | rfl | rfl
  · rw [show (4 * BitVec.setWidth 32 0#3 : Word) = 0#32 by decide, BitVec.add_zero]; rfl
  · rw [show (4 * BitVec.setWidth 32 1#3 : Word) = 4 by decide]; rfl
  · rw [show (4 * BitVec.setWidth 32 2#3 : Word) = 8 by decide]; rfl
  · rw [show (4 * BitVec.setWidth 32 3#3 : Word) = 12 by decide]; rfl
  · rw [show (4 * BitVec.setWidth 32 4#3 : Word) = 16 by decide]; rfl
  · rw [show (4 * BitVec.setWidth 32 5#3 : Word) = 20 by decide]; rfl
  · rw [show (4 * BitVec.setWidth 32 6#3 : Word) = 24 by decide]; rfl
  · rw [show (4 * BitVec.setWidth 32 7#3 : Word) = 28 by decide]; rfl

/-- The eight out-of-range records of a fill, or none (43_cache.md R133, 60_exceptions.md R178). -/
theorem filter_lineWords (pa : Word) :
    (lineWords pa).filter (fun a => region a = .outOfRange) = if region pa = .outOfRange then lineWords pa else [] := by
  have h : ∀ n < 32, region (lineBase pa + BitVec.ofNat 32 n) = region pa := fun n hn => region_lineBase_add pa hn
  have h0 : region (lineBase pa) = region pa := by
    have := h 0 (by omega)
    rwa [BitVec.add_zero] at this
  have h4 := h 4 (by omega)
  have h8 := h 8 (by omega)
  have h12 := h 12 (by omega)
  have h16 := h 16 (by omega)
  have h20 := h 20 (by omega)
  have h24 := h 24 (by omega)
  have h28 := h 28 (by omega)
  unfold lineWords
  by_cases hr : region pa = .outOfRange
  · simp [h0, h4, h8, h12, h16, h20, h24, h28, hr]
  · simp [h0, h4, h8, h12, h16, h20, h24, h28, hr]

/-- `LineFill` (43_cache.md R133): the log, and one line of one cache. -/
theorem State.lineFill_eq (c : CacheSel) (pa : Word) :
    s.lineFill c pa =
      State.setCache
        { s with
          log := s.log ++
            if s.reports pa then (lineWords pa).map fun a => { op := .read, addr := a, size := 4 } else [] }
        c ((s.cache c).setLine (cacheIdx pa) (s.filledLine pa)) := by
  have h := s.foldReport_eq .read 4 (lineWords pa)
  rw [filter_lineWords] at h
  have e : (if s.logEnabled = true then
      List.map (fun a => ({ op := .read, addr := a, size := 4 } : LogRecord))
        (if region pa = .outOfRange then lineWords pa else []) else []) =
      if s.reports pa = true then
        (lineWords pa).map (fun a => ({ op := .read, addr := a, size := 4 } : LogRecord)) else [] := by
    cases hl : s.logEnabled <;> by_cases hr : region pa = .outOfRange <;> simp [State.reports, hl, hr]
  rw [e] at h
  simp only [State.lineFill, h]
  cases c <;> rfl

/-- The state between the fill and the response of a cache read (43_cache.md R134). -/
theorem State.cacheRead_hit {c : CacheSel} {pa : Word} (h : (s.cache c).hits pa = true) :
    s.cacheRead c pa = s.respond { rdata := ((s.cache c).line (cacheIdx pa)).word (cacheOff pa) } := by
  unfold State.cacheRead
  simp [h]

/-- A read that misses answers the word of the backing store (43_cache.md R134). -/
theorem State.cacheRead_miss {c : CacheSel} {pa : Word} (h : (s.cache c).hits pa = false) :
    s.cacheRead c pa = (s.lineFill c pa).respond { rdata := s.memRead pa } := by
  unfold State.cacheRead
  have e : (((s.lineFill c pa).cache c).line (cacheIdx pa)).word (cacheOff pa) = s.memRead pa := by
    rw [State.lineFill_eq, State.cache_setCache_self, Cache.line_setLine_self, State.filledLine_word,
      ← alignWord_eq_lineBase_add, State.memRead_alignWord]
  simp [h, e]

/-- A filled line is hit by every address of its block. -/
theorem Cache.hits_setLine_filled (k : Cache) {pa pb : Word} (h : pa.toNat / 32 = pb.toNat / 32) :
    (k.setLine (cacheIdx pa) (s.filledLine pa)).hits pb = true := by
  obtain ⟨hi, ht⟩ := same_block_iff.mp h
  unfold Cache.hits
  rw [← hi, Cache.line_setLine_self]
  simp [State.filledLine, ht]

/-- A step takes the head of the input sequence and runs it. -/
theorem runNext_cons {s : State} {e : Event} {rest : List Event} (h : s.inputs = e :: rest) :
    runNext s = runEvent e { s with inputs := rest } := by
  unfold runNext State.takeInput
  rw [h]

theorem runNext_nil {s : State} (h : s.inputs = []) : runNext s = .next s := by
  unfold runNext State.takeInput
  rw [h]

end Sys2Proof.Machine
end

