-- ==== Sys2Proof/Laws/PerInstr.lean ====
section
/-! SUPPORT. Statements about every instruction as syntax, one lemma per constructor. -/

namespace Sys2Proof.Laws.EncodedForm

open Machine

/-- The request an instruction encodes to is well formed (30_encoding.md R80), and a field holds something other than the
request record's default only where the table of R70 says the operation uses it. -/
def Statement (i : Instr) : Prop :=
  (encode i).wellFormed = true ∧
  ((encode i).addr ≠ 0 → (encode i).cmd ∉ ([0x30, 0x31, 0x32] : List Byte)) ∧
  ((encode i).wdata ≠ 0 → (encode i).cmd ∈ ([0x04, 0x05, 0x06, 0x24, 0x25] : List Byte)) ∧
  ((encode i).len ≠ 0 → (encode i).cmd = 0x33) ∧
  ((encode i).image ≠ none → (encode i).cmd = 0x30) ∧
  ((encode i).sinkOk = true → (encode i).cmd = 0x31)

theorem rd8 (a : Word) : Statement (.rd8 a) := ⟨rfl, by simp [encode]⟩
theorem rd16 (a : Word) : Statement (.rd16 a) := ⟨rfl, by simp [encode]⟩
theorem rd32 (a : Word) : Statement (.rd32 a) := ⟨rfl, by simp [encode]⟩
theorem wr8 (a d : Word) : Statement (.wr8 a d) := ⟨rfl, by simp [encode]⟩
theorem wr16 (a d : Word) : Statement (.wr16 a d) := ⟨rfl, by simp [encode]⟩
theorem wr32 (a d : Word) : Statement (.wr32 a d) := ⟨rfl, by simp [encode]⟩
theorem xlate (a : Word) : Statement (.xlate a) := ⟨rfl, by simp [encode]⟩
theorem crdd (a : Word) : Statement (.crdd a) := ⟨rfl, by simp [encode]⟩
theorem crdi (a : Word) : Statement (.crdi a) := ⟨rfl, by simp [encode]⟩
theorem cwrd (a d : Word) : Statement (.cwrd a d) := ⟨rfl, by simp [encode]⟩
theorem cwri (a d : Word) : Statement (.cwri a d) := ⟨rfl, by simp [encode]⟩
theorem loadimg (image : Image) : Statement (.loadimg image) := ⟨rfl, by simp [encode]⟩
theorem logen (ok : Bool) : Statement (.logen ok) := ⟨rfl, by simp [encode]⟩
theorem logdis : Statement (.logdis) := ⟨rfl, by simp [encode]⟩
theorem dump (a l : Word) : Statement (.dump a l) := ⟨rfl, by simp [encode]⟩

end Sys2Proof.Laws.EncodedForm
end

