-- ==== Sys2Proof/Laws/Steps.lean ====
section
/-! SUPPORT. What the meanings and a step can do, once: the cache write under each policy, LOADIMG and DUMP as one equation
each, and the cases of a step. -/

namespace Sys2Proof.Machine

variable (s : State)

/-- A cache write under `CacheOnly` (43_cache.md R137). -/
theorem State.cacheWrite_cacheOnly (c : CacheSel) (pa v : Word) (h : s.params.writePolicy = .cacheOnly) :
    s.cacheWrite c pa v = (s.cacheWriteLine c pa v).respond {} := by
  have hp : (s.cacheWriteLine c pa v).params.writePolicy = .cacheOnly := by
    unfold State.cacheWriteLine
    rw [State.setCache_params]
    exact h
  unfold State.cacheWrite State.writePolicyStep
  rw [hp]

/-- A cache write under `WriteThrough` (43_cache.md R137): the caches of the line write, everything else of WR32. -/
theorem State.cacheWrite_writeThrough (c : CacheSel) (pa v : Word) (h : s.params.writePolicy = .writeThrough) :
    s.cacheWrite c pa v =
      State.respond
        { (s.routerWrite pa 4 fun _ => v) with
          icache := (s.cacheWriteLine c pa v).icache
          dcache := (s.cacheWriteLine c pa v).dcache } {} := by
  have hp : (s.cacheWriteLine c pa v).params.writePolicy = .writeThrough := by
    unfold State.cacheWriteLine
    rw [State.setCache_params]
    exact h
  unfold State.cacheWrite State.writePolicyStep
  rw [hp]
  simp only [State.routerWrite_eq, State.memWrite_eq]
  cases c <;> rfl

/-- A DUMP as one update of the log and the responses (44_host_control.md R155). -/
theorem execDump_eq (start len : Word) :
    execDump start len s = .next
      { s with
        log := s.log ++
          if s.params.dumpLogs && s.logEnabled then
            ((dumpWords start len).filter fun w => region w = .outOfRange).map fun w =>
              { op := .read, addr := w, size := 4 }
          else []
        responses := s.responses ++ [{ dump := (dumpWords start len).map fun w => (w, s.memRead w) }] } := by
  unfold execDump
  cases h : s.params.dumpLogs
  · simp [State.respond]
  · simp only [if_true, State.foldReport_eq, Bool.true_and]
    rfl

/-- Membership in the words of a dump (44_host_control.md R155). -/
theorem mem_dumpWords {start len w : Word} :
    w ∈ dumpWords start len ↔
      w.toNat % 4 = 0 ∧ start.toNat / 4 * 4 ≤ w.toNat ∧ w.toNat < min (start.toNat + len.toNat) (2 ^ 32) := by
  have h1 := start.isLt
  have h2 := len.isLt
  have h3 := w.isLt
  unfold dumpWords dumpCount
  simp only [List.mem_map, List.mem_range, alignWord_toNat]
  constructor
  · rintro ⟨i, hi, rfl⟩
    rw [BitVec.toNat_ofNat]
    omega
  · rintro ⟨ha, hb, hc⟩
    refine ⟨(w.toNat - start.toNat / 4 * 4) / 4, by omega, ?_⟩
    apply BitVec.eq_of_toNat_eq
    rw [BitVec.toNat_ofNat]
    omega

/-- What every instruction leaves alone and what it appends: it completes, it writes neither the page mapping nor the
parameters nor the inputs, it gives one response, and it only appends to the log. -/
structure Completes (s t : State) : Prop where
  pageMap : t.pageMap = s.pageMap
  params : t.params = s.params
  inputs : t.inputs = s.inputs
  response : ∃ r, t.responses = s.responses ++ [r]
  log : ∃ rs, t.log = s.log ++ rs

theorem routerRead_completes (pa : Word) (n : Byte) (f : Word → Word) : Completes s (s.routerRead pa n f) := by
  rw [State.routerRead_eq]
  exact ⟨rfl, rfl, rfl, ⟨_, rfl⟩, ⟨_, rfl⟩⟩

theorem routerWrite_completes (pa : Word) (n : Byte) (f : Word → Word) (r : Response) :
    Completes s ((s.routerWrite pa n f).respond r) := by
  rw [State.routerWrite_eq, State.memWrite_eq]
  exact ⟨rfl, rfl, rfl, ⟨_, rfl⟩, ⟨_, rfl⟩⟩

theorem cacheRead_completes (c : CacheSel) (pa : Word) : Completes s (s.cacheRead c pa) := by
  cases h : (s.cache c).hits pa
  · rw [State.cacheRead_miss _ h, State.lineFill_eq]
    cases c <;> exact ⟨rfl, rfl, rfl, ⟨_, rfl⟩, ⟨_, rfl⟩⟩
  · rw [State.cacheRead_hit _ h]
    exact ⟨rfl, rfl, rfl, ⟨_, rfl⟩, ⟨[], by simp⟩⟩

theorem cacheWrite_completes (c : CacheSel) (pa v : Word) : Completes s (s.cacheWrite c pa v) := by
  cases h : s.params.writePolicy
  · rw [State.cacheWrite_cacheOnly _ _ _ _ h]
    cases c <;> exact ⟨rfl, rfl, rfl, ⟨_, rfl⟩, ⟨[], by simp [State.cacheWriteLine]⟩⟩
  · rw [State.cacheWrite_writeThrough _ _ _ _ h, State.routerWrite_eq, State.memWrite_eq]
    cases c <;> exact ⟨rfl, rfl, rfl, ⟨_, rfl⟩, ⟨_, rfl⟩⟩

/-- Every instruction completes, from every state (60_exceptions.md R170). -/
theorem exec_completes (i : Instr) : ∃ t, exec i s = .next t ∧ Completes s t := by
  cases i with
  | rd8 | rd16 | rd32 => exact ⟨_, rfl, routerRead_completes ..⟩
  | wr8 | wr16 | wr32 => exact ⟨_, rfl, routerWrite_completes ..⟩
  | crdd | crdi => exact ⟨_, rfl, cacheRead_completes ..⟩
  | cwrd | cwri => exact ⟨_, rfl, cacheWrite_completes ..⟩
  | xlate va =>
    refine ⟨_, rfl, ?_⟩
    split
    · exact ⟨rfl, rfl, rfl, ⟨_, rfl⟩, ⟨[], by simp⟩⟩
    · rw [State.logAppend_eq]
      exact ⟨rfl, rfl, rfl, ⟨_, rfl⟩, ⟨_, rfl⟩⟩
  | loadimg image =>
    refine ⟨_, rfl, ?_⟩
    split
    · exact ⟨rfl, rfl, rfl, ⟨_, rfl⟩, ⟨[], by simp⟩⟩
    · split
      · exact ⟨rfl, rfl, rfl, ⟨_, rfl⟩, ⟨[], by simp⟩⟩
      · split <;> exact ⟨rfl, rfl, rfl, ⟨_, rfl⟩, ⟨[], by simp⟩⟩
  | logen ok => cases ok <;> exact ⟨_, rfl, rfl, rfl, rfl, ⟨_, rfl⟩, ⟨[], by simp⟩⟩
  | logdis => exact ⟨_, rfl, rfl, rfl, rfl, ⟨_, rfl⟩, ⟨[], by simp⟩⟩
  | dump start len =>
    exact ⟨_, execDump_eq s start len, rfl, rfl, rfl, ⟨_, rfl⟩, ⟨_, rfl⟩⟩

/-- The five things a step can be: idle, an instruction, the answer to a reserved command, the translation of a
pseudo-request, or a page-mapping change. -/
theorem step_cases :
    (s.inputs = [] ∧ step s = .next s) ∨
    (∃ r rest i, s.inputs = .request r :: rest ∧ decode r = .ok i ∧ step s = exec i { s with inputs := rest }) ∨
    (∃ r rest e, s.inputs = .request r :: rest ∧ decode r = .error e ∧
      step s = .next (State.answerBadCommand { s with inputs := rest })) ∨
    (∃ p rest t, s.inputs = .pseudo p :: rest ∧ exec (.xlate p.guest) { s with inputs := rest } = .next t ∧
      step s = .next (t.issueAccess p)) ∨
    (∃ vpn e rest, s.inputs = .setPage vpn e :: rest ∧
      step s = .next (State.mmuSetPage { s with inputs := rest } vpn e)) := by
  cases h : s.inputs with
  | nil => exact .inl ⟨rfl, runNext_nil h⟩
  | cons e rest =>
    cases e with
    | request r =>
      cases hd : decode r with
      | ok i =>
        refine .inr (.inl ⟨r, rest, i, rfl, hd, ?_⟩)
        rw [step, runNext_cons h]
        simp only [runEvent, runRequest, hd]
      | error e =>
        refine .inr (.inr (.inl ⟨r, rest, e, rfl, hd, ?_⟩))
        rw [step, runNext_cons h]
        simp only [runEvent, runRequest, hd]
    | pseudo p =>
      refine .inr (.inr (.inr (.inl ⟨p, rest, _, rfl, rfl, ?_⟩)))
      rw [step, runNext_cons h]
      rfl
    | setPage vpn e =>
      refine .inr (.inr (.inr (.inr ⟨vpn, e, rest, rfl, ?_⟩)))
      rw [step, runNext_cons h]
      rfl

end Sys2Proof.Machine
end

