-- ==== Sys2Proof/Machine/HostText.lean ====
section
/-! DEFINITION. The text forms at the host: the line of a log record (30_encoding.md R85) and the syntax of requests (R82)
with the pseudo-requests (R83). No rule of the block depends on them (R85, 44_host_control.md R156). The points of the
syntax R82 leaves open are log entry 15. -/

namespace Sys2Proof.Machine

/-- The upper-case hexadecimal digit of a number below 16. -/
def hexChar (n : Nat) : Char := "0123456789ABCDEF".toList.getD n '?'

/-- An address in eight upper-case hexadecimal digits (30_encoding.md R85). -/
def hex8 (a : Word) : List Char :=
  [28, 24, 20, 16, 12, 8, 4, 0].map fun s => hexChar ((a.toNat >>> s) % 16)

/-- The operation name of a log line (30_encoding.md R85). -/
def LogOp.name : LogOp → List Char
  | .read => "READ".toList
  | .write => "WRITE".toList
  | .translationMiss => "XLATE_MISS".toList

/-- The line of a log record (30_encoding.md R85). -/
def LogRecord.line (r : LogRecord) : List Char :=
  LogOp.name r.op ++ " 0x".toList ++ hex8 r.addr ++ [' '] ++ Nat.toDigits 10 r.size.toNat

/-- A text without leading and trailing white space. -/
def trim (l : List Char) : List Char :=
  ((l.dropWhile Char.isWhitespace).reverse.dropWhile Char.isWhitespace).reverse

/-- A text cut at its commas (30_encoding.md R82). -/
def splitCommas : List Char → List (List Char)
  | [] => [[]]
  | c :: r =>
    if c = ',' then [] :: splitCommas r
    else
      match splitCommas r with
      | [] => [[c]]
      | x :: xs => (c :: x) :: xs

/-- The value of a digit, if it is one below the base. -/
def digitValue (base : Nat) (c : Char) : Option Nat :=
  let n :=
    if '0' ≤ c ∧ c ≤ '9' then c.toNat - '0'.toNat
    else if 'a' ≤ c ∧ c ≤ 'f' then c.toNat - 'a'.toNat + 10
    else if 'A' ≤ c ∧ c ≤ 'F' then c.toNat - 'A'.toNat + 10
    else base
  if n < base then some n else none

/-- The digits of a number, read on from a value. -/
def readDigits (base : Nat) : Nat → List Char → Option Nat
  | n, [] => some n
  | n, c :: r =>
    match digitValue base c with
    | none => none
    | some d => readDigits base (base * n + d) r

/-- A number, decimal or `0x` hexadecimal (30_encoding.md R82). -/
def readNumber : List Char → Option Nat
  | [] => none
  | ['0', 'x'] => none
  | '0' :: 'x' :: ds => readDigits 16 0 ds
  | ds => readDigits 10 0 ds

/-- A number that fits in 32 bits. -/
def readWordOperand (l : List Char) : Option Word :=
  match readNumber l with
  | none => none
  | some n => if n < 2 ^ 32 then some (BitVec.ofNat 32 n) else none

/-- A number that fits in the `cmd` byte. -/
def readCmd (l : List Char) : Option Byte :=
  match readNumber l with
  | none => none
  | some n => if n < 2 ^ 8 then some (BitVec.ofNat 8 n) else none

/-- The byte sequence called NAME (30_encoding.md R82). -/
def findImage (name : List Char) : List (List Char × List Byte) → Option (List Byte)
  | [] => none
  | p :: r => if p.1 = name then some p.2 else findImage name r

/-- A form with one address operand. -/
def form1 (f : Word → Event) (a : List Char) : Option Event :=
  match readWordOperand a with
  | none => none
  | some x => some (f x)

/-- A form with an address and a second word operand. -/
def form2 (f : Word → Word → Event) (a d : List Char) : Option Event :=
  match readWordOperand a, readWordOperand d with
  | some x, some y => some (f x y)
  | _, _ => none

/-- A form of one operand, by its mnemonic in lower case (30_encoding.md R82, R83). -/
def parse1 (images : List (List Char × List Byte)) (m : String) (a : List Char) : Option Event :=
  match m with
  | "rd8" => form1 (fun x => .request (encode (.rd8 x))) a
  | "rd16" => form1 (fun x => .request (encode (.rd16 x))) a
  | "rd32" => form1 (fun x => .request (encode (.rd32 x))) a
  | "xlate" => form1 (fun x => .request (encode (.xlate x))) a
  | "crdd" => form1 (fun x => .request (encode (.crdd x))) a
  | "crdi" => form1 (fun x => .request (encode (.crdi x))) a
  | "vrd8" => form1 (fun x => .pseudo (.vrd8 x)) a
  | "vrd16" => form1 (fun x => .pseudo (.vrd16 x)) a
  | "vrd32" => form1 (fun x => .pseudo (.vrd32 x)) a
  | "vcrdd" => form1 (fun x => .pseudo (.vcrdd x)) a
  | "vcrdi" => form1 (fun x => .pseudo (.vcrdi x)) a
  | "loadimg" =>
    if a = "fail".toList then some (.request (encode (.loadimg none)))
    else
      match findImage a images with
      | none => none
      | some b => some (.request (encode (.loadimg (some b))))
  | "logen" =>
    if a = "ok".toList then some (.request (encode (.logen true)))
    else if a = "fail".toList then some (.request (encode (.logen false)))
    else none
  | ".cmd" =>
    match readCmd a with
    | none => none
    | some c => some (.request { cmd := c })
  | _ => none

/-- A form of two operands, by its mnemonic in lower case (30_encoding.md R82, R83). -/
def parse2 (m : String) (a d : List Char) : Option Event :=
  match m with
  | "wr8" => form2 (fun x y => .request (encode (.wr8 x y))) a d
  | "wr16" => form2 (fun x y => .request (encode (.wr16 x y))) a d
  | "wr32" => form2 (fun x y => .request (encode (.wr32 x y))) a d
  | "cwrd" => form2 (fun x y => .request (encode (.cwrd x y))) a d
  | "cwri" => form2 (fun x y => .request (encode (.cwri x y))) a d
  | "dump" => form2 (fun x y => .request (encode (.dump x y))) a d
  | "vwr8" => form2 (fun x y => .pseudo (.vwr8 x y)) a d
  | "vwr16" => form2 (fun x y => .pseudo (.vwr16 x y)) a d
  | "vwr32" => form2 (fun x y => .pseudo (.vwr32 x y)) a d
  | "vcwrd" => form2 (fun x y => .pseudo (.vcwrd x y)) a d
  | "vcwri" => form2 (fun x y => .pseudo (.vcwri x y)) a d
  | _ => none

/-- One line of request text (30_encoding.md R82): a comment is dropped, the mnemonic is read without regard to case, the
operands are separated by commas. `none` where the line holds no request. -/
def assembleLine (images : List (List Char × List Byte)) (line : List Char) : Option Event :=
  let code := trim (line.takeWhile (· ≠ ';'))
  let mnemonic := String.ofList ((code.takeWhile fun c => !c.isWhitespace).map Char.toLower)
  let rest := trim (code.dropWhile fun c => !c.isWhitespace)
  match rest with
  | [] => if mnemonic = "logdis" then some (.request (encode .logdis)) else none
  | _ =>
    match (splitCommas rest).map trim with
    | [a] => parse1 images mnemonic a
    | [a, d] => parse2 mnemonic a d
    | _ => none

end Sys2Proof.Machine
end

