-- ==== Sys2Proof/Tests/Slice0.lean ====
section
/-! SUPPORT. Tests. Expected results are those of spec/95_test_vectors.md (S1 to S9, §2.1 to §2.7), the rules' own
examples, or hand calculation from the rules; the comment of each names its source. -/

namespace Sys2Proof.Tests

open Machine Vocabulary

/-! ### Helpers -/

/-- §2.2's start: the word 0xDEADBEEF at 0x10000, logging enabled. -/
def start : State := { State.reset with ram := Memory.writeWord [] 0x10000 0xDEADBEEF, logEnabled := true }

/-- The state after an instruction (the old one where it stops). -/
def after (i : Instr) (s : State) : State :=
  match exec i s with
  | .next t => t
  | .fault _ => s
  | .refused _ => s

/-- The state after a step (the old one where it stops). -/
def afterStep (s : State) : State :=
  match step s with
  | .next t => t
  | .fault _ => s
  | .refused _ => s

/-- The last answer's status and `rdata`. -/
def answer (s : State) : Option (Status × Word) := s.responses.getLast?.map fun r => (r.status, r.rdata)

def withMask3 (s : State) : State := { s with params := { s.params with halfMask := .mask3 } }
def withPolicy (s : State) : State := { s with params := { s.params with writePolicy := .writeThrough } }
def withPage (s : State) (vpn : Vpn) (e : PageEntry) : State := s.mmuSetPage vpn (some e)

/-- A line of block 0x10000 with words A0000000 to A0000007 resident in both instances. -/
def lineA : Line :=
  { tag := 0x00010
    data := #v[0xA0000000, 0xA0000001, 0xA0000002, 0xA0000003, 0xA0000004, 0xA0000005, 0xA0000006, 0xA0000007]
    valid := true }
def cached : State :=
  { start with dcache := Cache.reset.setLine 0 lineA, icache := Cache.reset.setLine 0 lineA }

/-! ### Well-formedness: an ill-formed term for each check is refused -/

theorem test_request_ill_formed : Request.wellFormed { cmd := 0x03 } = false := by decide
theorem test_request_well_formed : Request.wellFormed { cmd := 0x06 } = true := by decide
theorem test_record_read_size_ill_formed :
    LogRecord.wellFormed { op := .read, addr := 0, size := 3 } = false := by decide
theorem test_record_write_size_ill_formed :
    LogRecord.wellFormed { op := .write, addr := 0, size := 0 } = false := by decide
theorem test_record_miss_size_ill_formed :
    LogRecord.wellFormed { op := .translationMiss, addr := 0, size := 4 } = false := by decide
theorem test_memory_unsorted_ill_formed : ¬ Memory.wf [(8, 1), (4, 1)] := by decide
theorem test_memory_zero_cell_ill_formed : ¬ Memory.wf [(8, 0)] := by decide
theorem test_memory_outside_region_ill_formed : ¬ Memory.within [(0x02000000, 1)] Config.ramBase Config.ramSize := by decide
theorem test_pagemap_unsorted_ill_formed : ¬ PageMap.wf [(2, ⟨0, true⟩), (1, ⟨0, true⟩)] := by decide
theorem test_pagemap_wide_page_ill_formed : ¬ PageMap.wf [(1048576, ⟨0, true⟩)] := by decide
theorem test_state_rom_before_load_ill_formed :
    ¬ State.wf { State.reset with rom := [(0xBFC00000, 1)] } := by decide

/-! ### Decoding: the command byte of every row, bit by bit from 30_encoding.md R73 to R76 -/

theorem test_decode_rd8 : decode { cmd := 0b00000000, addr := 0x10 } = .ok (.rd8 0x10) := rfl
theorem test_decode_rd16 : decode { cmd := 0b00000001, addr := 0x10 } = .ok (.rd16 0x10) := rfl
theorem test_decode_rd32 : decode { cmd := 0b00000010, addr := 0x10 } = .ok (.rd32 0x10) := rfl
theorem test_decode_wr8 : decode { cmd := 0b00000100, addr := 0x10, wdata := 0x1FF } = .ok (.wr8 0x10 0x1FF) := rfl
theorem test_decode_wr16 : decode { cmd := 0b00000101, addr := 0x10, wdata := 7 } = .ok (.wr16 0x10 7) := rfl
theorem test_decode_wr32 : decode { cmd := 0b00000110, addr := 0x10, wdata := 7 } = .ok (.wr32 0x10 7) := rfl
theorem test_decode_xlate : decode { cmd := 0b00010000, addr := 0x10 } = .ok (.xlate 0x10) := rfl
theorem test_decode_crdd : decode { cmd := 0b00100000, addr := 0x10 } = .ok (.crdd 0x10) := rfl
theorem test_decode_crdi : decode { cmd := 0b00100001, addr := 0x10 } = .ok (.crdi 0x10) := rfl
theorem test_decode_cwrd : decode { cmd := 0b00100100, addr := 0x10, wdata := 7 } = .ok (.cwrd 0x10 7) := rfl
theorem test_decode_cwri : decode { cmd := 0b00100101, addr := 0x10, wdata := 7 } = .ok (.cwri 0x10 7) := rfl
theorem test_decode_loadimg : decode { cmd := 0b00110000, image := some [1] } = .ok (.loadimg (some [1])) := rfl
theorem test_decode_logen : decode { cmd := 0b00110001, sinkOk := true } = .ok (.logen true) := rfl
theorem test_decode_logdis : decode { cmd := 0b00110010, addr := 0x10 } = .ok .logdis := rfl
theorem test_decode_dump : decode { cmd := 0b00110011, addr := 0x10, len := 8 } = .ok (.dump 0x10 8) := rfl

/-- §2.7's reserved commands, and that there are 241 of them (30_encoding.md R78). -/
theorem test_decode_reserved :
    [0x03, 0x07, 0x11, 0x22, 0x34, 0xFF].map (decodeTableWord 8) = [none, none, none, none, none, none] := by decide
theorem test_reserved_count :
    ((List.range 256).filter fun w => (decodeTableWord 8 w).isNone).length = 241 := by decide +kernel

/-- A word with operand bits above `cmd` (log entry 9's layout): WR32 of 7 to 0x10. -/
theorem test_decode_with_operand_bits :
    decodeTableWord 72 (0x06 + 0x10 * 2 ^ 8 + 7 * 2 ^ 40) = some (.wr32 0x10 7) := by decide

/-! ### Regions (§2.1) and cache arithmetic (S9, §2.4) -/

theorem test_region_edges :
    [0x00000000, 0x01FFFFFF, 0x02000000, 0x6FFFFFFC, 0x70000000, 0x70003FFF, 0x70004000, 0xBFBFFFFC, 0xBFC00000,
      0xBFFFFFFF, 0xC0000000, 0xFFFFFFFF].map region =
    [.ram, .ram, .outOfRange, .outOfRange, .spad, .spad, .outOfRange, .outOfRange, .rom, .rom, .outOfRange,
      .outOfRange] := by decide

theorem test_decompose :
    (cacheIdx 0x12345677, cacheTag 0x12345677, cacheOff 0x12345677, lineBase 0x12345677) =
      (51#7, 0x12345#20, 5#3, 0x12345660#32) := by decide

/-! ### Router (§2.2) -/

theorem test_rd8_lane3 : answer (after (.rd8 0x10003) start) = some (.ok, 0xDE) := by decide
theorem test_rd8_scratchpad :
    answer (after (.rd8 0x70000001) { start with spad := Memory.writeWord [] 0x70000000 0x11223344 }) =
      some (.ok, 0x33) := by decide
theorem test_rd16_odd_mask2 : answer (after (.rd16 0x10003) start) = some (.ok, 0xDEAD) := by decide
theorem test_rd16_odd_mask3 : answer (after (.rd16 0x10003) (withMask3 start)) = some (.ok, 0x00DE) := by decide
theorem test_rd32_misaligned : answer (after (.rd32 0x10001) start) = some (.ok, 0xDEADBEEF) := by decide
theorem test_rd32_out_of_range_logs :
    (after (.rd32 0x02000000) start).log = [⟨.read, 0x02000000, 4⟩] := by decide
theorem test_wr8_lane2 : (after (.wr8 0x10002 0x12345678) start).ramWord 0x4000 = 0xDE78BEEF := by decide
theorem test_wr8_out_of_range_logs_once :
    (after (.wr8 0x02000001 0xFF) start).log = [⟨.write, 0x02000001, 1⟩] := by decide
theorem test_wr16_odd_mask2 : (after (.wr16 0x10001 0xCAFE) start).ramWord 0x4000 = 0xDEADCAFE := by decide
theorem test_wr16_top_byte_mask3 :
    (after (.wr16 0x10003 0xCAFE) (withMask3 start)).ramWord 0x4000 = 0xFEADBEEF := by decide
theorem test_wr32_misaligned : (after (.wr32 0x10003 0x01020304) start).ramWord 0x4000 = 0x01020304 := by decide
theorem test_wr32_rom_dropped : after (.wr32 0xBFC00000 1) start = start.respond {} := by rfl

/-! ### Translator (§2.3) -/

theorem test_xlate_wraps :
    answer (after (.xlate 0x00404900) (withPage start 0x00404 ⟨0xFFFFF800, true⟩)) = some (.ok, 0x00000100) := by decide
theorem test_xlate_invalid_entry_logs :
    (after (.xlate 0x00402FFF) (withPage start 0x00402 ⟨0x00200000, false⟩)).log =
      [⟨.translationMiss, 0x00402FFF, 0⟩] := by decide

/-! ### Caches (§2.5) -/

theorem test_crdd_miss_fills :
    let t := after (.crdd 0x10008) start
    (answer t, (t.dcache.line 0).tag, (t.dcache.line 0).word 0, (t.dcache.line 0).valid) =
      (some (.ok, 0), 0x10#20, 0xDEADBEEF#32, true) := by decide
/-- Row 14: a hit on a resident out-of-range block answers 0 and logs nothing; row 13's fill logs eight. -/
theorem test_crdd_out_of_range_fill_logs :
    (after (.crdd 0x02000010) start).log =
      [⟨.read, 0x02000000, 4⟩, ⟨.read, 0x02000004, 4⟩, ⟨.read, 0x02000008, 4⟩, ⟨.read, 0x0200000C, 4⟩,
       ⟨.read, 0x02000010, 4⟩, ⟨.read, 0x02000014, 4⟩, ⟨.read, 0x02000018, 4⟩, ⟨.read, 0x0200001C, 4⟩] := by decide
theorem test_crdi_hit_is_stale : answer (after (.crdi 0x1001C) cached) = some (.ok, 0xA0000007) := by decide
/-- Row 11: the write miss keeps seven words of block 0x10000. -/
theorem test_cwrd_miss_keeps_words :
    let t := after (.cwrd 0x12000 0x99999999) cached
    ((t.dcache.line 0).tag, (t.dcache.line 0).word 0, (t.dcache.line 0).word 1) =
      (0x12#20, 0x99999999#32, 0xA0000001#32) := by decide
theorem test_cwrd_write_through_stores :
    (after (.cwrd 0x10010 0x77777777) (withPolicy cached)).ramWord 0x4004 = 0x77777777 := by decide
/-- 43_cache.md R139's example. -/
theorem test_cwri_example :
    let t := after (.cwri 0x00000040 0xAABBCCDD) State.reset
    ((t.icache.line 2).valid, (t.icache.line 2).word 0, (t.icache.line 2).word 1) =
      (true, 0xAABBCCDD#32, 0#32) := by decide
theorem test_cwri_cache_only_does_not_store :
    (after (.cwri 0x10000 5) cached).ramWord 0x4000 = 0xDEADBEEF := by decide

/-! ### Host and control (§2.6) -/

theorem test_loadimg_short_fails : answer (after (.loadimg (some [1, 2, 3])) start) = some (.imageLoadError, 0) := by decide
/-- Row 4's first words: the packing of an image's bytes is little-endian (44_host_control.md R151). -/
theorem test_loadimg_packs_little_endian :
    (start.loadRom [0x00, 0x00, 0x08, 0x3C, 0x25, 0x08, 0x01, 0x00]).romWord 1 = 0x00010825 := by decide
theorem test_logen_fail_disables :
    let t := after (.logen false) start
    (answer t, t.logEnabled) = (some (.logSinkError, 0), false) := by decide
theorem test_logen_ok : (after (.logen true) State.reset).logEnabled = true := by decide
theorem test_logdis : (after .logdis start).logEnabled = false := by decide
/-- Row 10. -/
theorem test_dump_mid_word :
    (after (.dump 0x10002 4) start).responses =
      [{ dump := [(0x10000, 0xDEADBEEF), (0x10004, 0)] }] := by decide
/-- Row 13: `DUMP_LOGS`, cut at the top of the address space. -/
theorem test_dump_logs_top :
    let t := after (.dump 0xFFFFFFFC 16) { start with params := { start.params with dumpLogs := true } }
    (t.log, t.responses) = ([⟨.read, 0xFFFFFFFC, 4⟩], [{ dump := [(0xFFFFFFFC, 0)] }]) := by decide

/-! ### Steps -/

theorem test_step_reserved : answer (afterStep (start.withFetchWord 8 0x22)) = some (.badCommand, 0) := by decide
theorem test_step_fetches_word : answer (afterStep (start.withFetchWord 40 (0x02 + 0x10000 * 2 ^ 8))) =
    some (.ok, 0xDEADBEEF) := by decide
/-- P3's second request: the access follows at the translated address. -/
theorem test_step_pseudo :
    (afterStep { withPage start 0x00010 ⟨0x70000000, true⟩ with
      inputs := [.pseudo (.vwr32 0x00010010 0xCAFEF00D)] }).inputs =
      [.request { cmd := 0x06, addr := 0x70000010, wdata := 0xCAFEF00D }] := by decide
theorem test_step_set_page :
    (afterStep { start with inputs := [.setPage 0x00400 (some ⟨0x00123000, true⟩)] }).pageMap =
      [(0x00400, ⟨0x00123000, true⟩)] := by decide

/-! ### Text forms -/

/-- 30_encoding.md R85's example. -/
theorem test_record_line :
    LogRecord.line { op := .read, addr := 0x02000000, size := 4 } = "READ 0x02000000 4".toList := by decide
/-- 30_encoding.md R82: case, comment, hexadecimal and decimal. -/
theorem test_assemble_wr32 :
    assembleLine [] "  WR32 0x10000, 10 ; note".toList = some (.request (encode (.wr32 0x10000 10))) := by decide
theorem test_assemble_raw_command : assembleLine [] ".cmd 0x22".toList = some (.request { cmd := 0x22 }) := by decide
theorem test_assemble_pseudo : assembleLine [] "vcrdi 64".toList = some (.pseudo (.vcrdi 64)) := by decide
theorem test_assemble_logdis : assembleLine [] "logdis".toList = some (.request (encode .logdis)) := by decide
theorem test_assemble_loadimg :
    assembleLine [("IMG".toList, [1])] "loadimg IMG".toList = some (.request (encode (.loadimg (some [1])))) := by decide
theorem test_assemble_rejects_wide_number : assembleLine [] "rd8 0x100000000".toList = none := by decide

/-! ### Witnesses: for each statement with hypotheses, a state and operands that meet all of them -/

/-- Requests, a pseudo-request and a page change in the queue. -/
def queued (e : Event) : State := { start with inputs := [e, .request { cmd := 0x32 }] }
/-- Block 0x10000 resident in both instances with the backing store's words. -/
def filled : State := after (.crdi 0x10000) (after (.crdd 0x10000) start)
def loaded : State := { start with romLoaded := true }
def unlogged : State := { start with logEnabled := false }
/-- An image of the right size. -/
def blankImage : List Byte := List.replicate 4194304 0

theorem witness_UnusedRequestFieldsHaveNoEffect :
    let r : Request := { cmd := 0x04, addr := 0x10, wdata := 7, len := 1, image := some [1], sinkOk := true }
    let q : Request := { cmd := 0x04, addr := 0x10, wdata := 7 }
    r.cmd = q.cmd ∧ (usesAddr r.cmd → r.addr = q.addr) ∧ (usesWdata r.cmd → r.wdata = q.wdata) ∧
      ¬ usesLen r.cmd ∧ ¬ usesImage r.cmd ∧ ¬ usesSinkOk r.cmd ∧ r ≠ q := by
  refine ⟨rfl, fun _ => rfl, fun _ => rfl, ?_, ?_, ?_, ?_⟩ <;> first | (unfold usesLen; decide) | (unfold usesImage; decide) | (unfold usesSinkOk; decide) | decide
/-- One command of each of the four tables, at the edge of its function bits, and one just outside each. -/
theorem witness_DefinedCommandsFollowUnitAndFunctionBits :
    ([0x06, 0x10, 0x25, 0x33] : List Byte).map (fun c => (decode { cmd := c }).isOk) = [true, true, true, true] ∧
    ([0x07, 0x11, 0x26, 0x34, 0x40] : List Byte).map (fun c => (decode { cmd := c }).isOk) =
      [false, false, false, false, false] := by decide
theorem witness_StatusAndRecordCodesRoundTrip :
    LogRecord.wellFormed { op := .read, addr := 0x02000000, size := 4 } = true ∧
    LogRecord.decode (2#2, 0x00500004, 0) = some { op := .translationMiss, addr := 0x00500004, size := 0 } := by decide
theorem witness_StepRunsTheDecodedRequest :
    (queued (.request { cmd := 0x02, addr := 0x10000 })).inputs =
      [.request { cmd := 0x02, addr := 0x10000 }, .request { cmd := 0x32 }] ∧
    decode { cmd := 0x02, addr := 0x10000 } = .ok (.rd32 0x10000) := ⟨rfl, rfl⟩
theorem witness_ReservedCommandAnswersBadCommandOnly :
    (queued (.request { cmd := 0x22 })).inputs = [.request { cmd := 0x22 }, .request { cmd := 0x32 }] ∧
    (0x22 : Byte) ∉
      ([0x00, 0x01, 0x02, 0x04, 0x05, 0x06, 0x10, 0x20, 0x21, 0x24, 0x25, 0x30, 0x31, 0x32, 0x33] : List Byte) := by
  decide
theorem witness_StepAppliesPageMappingChange :
    (queued (.setPage 0xFFFFF none)).inputs = [.setPage 0xFFFFF none, .request { cmd := 0x32 }] := rfl
theorem witness_PseudoRequestIsTranslationThenAccess :
    (queued (.pseudo (.vcwri 0x00010010 5))).inputs = [.pseudo (.vcwri 0x00010010 5), .request { cmd := 0x32 }] := rfl
theorem witness_StepWithoutInputChangesNothing : start.inputs = [] := rfl
theorem witness_EveryRequestCompletesWithOneResponse :
    (queued (.request { cmd := 0xFF })).inputs = [.request { cmd := 0xFF }, .request { cmd := 0x32 }] := rfl
theorem witness_ParametersNeverChange : ∃ t, step (queued (.request { cmd := 0x33, len := 4 })) = .next t := ⟨_, rfl⟩

/-- The edges of the regions, at the first and the last word of each. -/
theorem witness_MemReadIsTheContainingWord :
    (inRam 0 && inRam 0x01FFFFFF && inRom 0xBFC00000 && inRom 0xBFFFFFFF && inSpad 0x70000000 && inSpad 0x70003FFF &&
      outside 0x02000000 && outside 0x70004000 && outside 0xBFBFFFFF && outside 0xFFFFFFFF) = true := by decide
theorem witness_RegionDispatchByAddressRange :
    [region 0x01FFFFFF, region 0xBFFFFFFF, region 0x70003FFF, region 0xC0000000] = [.ram, .rom, .spad, .outOfRange] := by
  decide
theorem witness_BlockLiesInOneRegion : sameBlock 0x70003FE0 0x70003FFF ∧ ¬ sameBlock 0x70003FFF 0x70004000 := by
  constructor <;> unfold sameBlock <;> decide
/-- Both widths, at shift 24, where a half-word lane loses its upper byte. -/
theorem witness_LaneExtractAndInjectAreBitFields :
    (8 = 8 ∨ 8 = 16) ∧ (16 = 8 ∨ 16 = 16) ∧ 24 < 32 ∧ extractLane 0xDEADBEEF 24 16 = 0xDE ∧
      injectLane 0xDEADBEEF 24 16 0xCAFE = 0xFEADBEEF := by decide
theorem witness_RomWritesHaveNoEffect : inRom 0xBFC00000 = true ∧ inRom 0xBFFFFFFF = true := by decide

theorem witness_XlateAnswersMappedOrIdentity :
    mapped (withPage start 0x00404 ⟨0xFFFFF800, true⟩) 0x00404900 0xFFFFF800 ∧
    (∀ base, ¬ mapped (withPage start 0x00402 ⟨0x00200000, false⟩) 0x00402FFF base) ∧
    ∀ base, ¬ mapped start 0x00402FFF base := by
  refine ⟨rfl, fun b h => ?_, fun b h => ?_⟩
  · have e : PageMap.entry (withPage start 0x00402 ⟨0x00200000, false⟩).pageMap 0x00402 =
      some ⟨0x00200000, false⟩ := rfl
    exact absurd (congrArg (Option.map PageEntry.valid) (e.symm.trans h)) (by simp)
  · have e : PageMap.entry start.pageMap 0x00402 = none := rfl
    exact absurd (congrArg (Option.map PageEntry.valid) (e.symm.trans h)) (by simp)
theorem witness_TranslateIsBasePlusPageOffset :
    mapped (withPage start 0x00400 ⟨0x00123000, true⟩) 0x00400FFF 0x00123000 ∧
    (withPage start 0x00400 ⟨0x00123000, true⟩).pageMap = (withPage cached 0x00400 ⟨0x00123000, true⟩).pageMap :=
  ⟨rfl, rfl⟩
theorem witness_SamePageAddressesKeepTheirDistance :
    mapped (withPage start 0x00400 ⟨0xFFFFF800, true⟩) 0x00400FFF 0xFFFFF800 ∧
    (0x00400FFF : Word).toNat / 4096 = (0x00400000 : Word).toNat / 4096 := ⟨rfl, by decide⟩
theorem witness_PageMappingIsChangedOnlyByTheMmuActor :
    ∃ t, step (queued (.setPage 0x00400 (some ⟨0x00123000, true⟩))) = .next t ∧
      t.pageMap ≠ (queued (.setPage 0x00400 (some ⟨0x00123000, true⟩))).pageMap := ⟨_, rfl, by decide⟩
theorem witness_PageMappingChangeTakesEffectAtOnce :
    ({ start with
      inputs := [.setPage 0x00400 (some ⟨0x00123000, true⟩), .request { cmd := 0x10, addr := 0x00400FFF }] } :
        State).inputs =
      .setPage ((0x00400FFF : Word).extractLsb' 12 20) (some { base := 0x00123000, valid := true }) ::
        .request (encode (.xlate 0x00400FFF)) :: [] := by decide
/-- Sharing, conflicting and one-word pairs, and an address in range. -/
theorem witness_CacheAddressDecomposition :
    (0x10000 : Word).toNat / 32 = (0x1001F : Word).toNat / 32 ∧
    (0x10000 : Word).toNat / 32 % 128 = (0x11000 : Word).toNat / 32 % 128 ∧
    (0x10000 : Word).toNat / 4096 ≠ (0x11000 : Word).toNat / 4096 ∧
    (0x10000 : Word).toNat / 4 = (0x10003 : Word).toNat / 4 ∧ outside 0x10003 = false := by decide
theorem witness_DecodeOfEncodeIsTheInstruction :
    decode { cmd := 0x32, addr := 5 } = .ok .logdis ∧ encode .logdis ≠ { cmd := 0x32, addr := 5 } := ⟨rfl, by decide⟩

theorem witness_CacheReadHitOnlyAnswers :
    (resident cached .data 0x10000 && resident cached .inst 0x1001F) = true := by decide
theorem witness_CacheReadMissFillsOneLine :
    (resident start .data 0x10000 || resident cached .inst 0x12000 || resident cached .data 0x02000000) = false := by
  decide
theorem witness_CacheOnlyWriteWritesItsLineAlone : start.params.writePolicy = .cacheOnly := rfl
theorem witness_WriteThroughWriteAlsoStoresTheWord :
    (withPolicy start).params.writePolicy = .writeThrough ∧
    (storable 0x70003FFC && storable 0x01FFFFFC && !storable 0xBFC00000) = true := ⟨rfl, by decide⟩
theorem witness_WriteMissLeavesSevenStaleWords :
    resident cached .data 0x12000 = false ∧ sameBlock 0x12000 0x1201C ∧ slotBits 0x1201C ≠ slotBits 0x12000 := by
  refine ⟨by decide, ?_, by decide⟩; unfold sameBlock; decide
theorem witness_CacheInstancesAreIndependent :
    (∀ pa, Instr.crdd 0x10000 ≠ .crdi pa) ∧ (∀ pa v, Instr.crdd 0x10000 ≠ .cwri pa v) ∧
    (∀ pa, Instr.cwri 0x10000 5 ≠ .crdd pa) ∧ ∀ pa v, Instr.cwri 0x10000 5 ≠ .cwrd pa v := by simp
theorem witness_RouterWriteDoesNotReachAResidentLine : resident cached .inst 0x10004 = true := by decide
theorem witness_CacheOnlyWriteIsLocal :
    cached.params.writePolicy = .cacheOnly ∧ CacheSel.inst ≠ CacheSel.data := ⟨rfl, by decide⟩
theorem witness_ConflictingReadEvicts : idxBits 0x10000 = idxBits 0x11000 ∧ tagBits 0x10000 ≠ tagBits 0x11000 := by
  decide
theorem witness_CoherentLineStaysCoherent :
    filled.lineCoherent .data 0x10004 ∧ ¬ disturbs .data 0x10004 (.wr32 0x10020 5) ∧
      ¬ disturbs .data 0x10004 (.crdd 0x10008) := by
  refine ⟨⟨by decide, by decide⟩, ?_, ?_⟩
  · unfold disturbs sameBlock; decide
  · unfold disturbs; decide
theorem witness_EvictionDiscardsACacheOnlyWrite :
    cached.params.writePolicy = .cacheOnly ∧ idxBits 0x1001C = idxBits 0x12000 ∧ tagBits 0x1001C ≠ tagBits 0x12000 :=
  ⟨rfl, by decide, by decide⟩
theorem witness_DroppedWriteThroughStillUpdatesTheCache :
    (withPolicy cached).params.writePolicy = .writeThrough ∧ storable 0xBFC00000 = false ∧
      storable 0x02000000 = false := ⟨rfl, by decide, by decide⟩
theorem witness_ValidBitsAreNeverCleared :
    ∃ t, step { cached with inputs := [.request { cmd := 0x20, addr := 0x12000 }] } = .next t ∧
      ((cached.cache .data).line 0).valid = true := ⟨_, rfl, rfl⟩

theorem blankImage_length : blankImage.length = 4194304 := List.length_replicate
theorem witness_LoadimgLeavesResidentLinesStale :
    resident cached .data 0x10000 = true ∧ cached.romLoaded = false ∧ blankImage.length = 4194304 :=
  ⟨by decide, rfl, blankImage_length⟩
theorem witness_LoadimgReplacesTheWholeRom : start.romLoaded = false ∧ blankImage.length = 4194304 :=
  ⟨rfl, blankImage_length⟩
/-- Each of the three reasons alone; an empty image is of the wrong size. -/
theorem witness_FailedLoadimgChangesNothing :
    loaded.romLoaded = true ∧ start.romLoaded = false ∧ (some [] : Image) = some [] ∧
      ([] : List Byte).length ≠ 4194304 := ⟨rfl, rfl, rfl, by decide⟩
theorem witness_RomChangesOnlyByTheOneLoad :
    (∃ t, step { loaded with inputs := [.request { cmd := 0x30 }] } = .next t ∧ loaded.romLoaded = true) ∧
    ∃ t, step { start with inputs := [.request { cmd := 0x30, image := some blankImage }] } = .next t ∧
      t.romLoaded ≠ start.romLoaded := by
  refine ⟨⟨_, rfl, rfl⟩, (({ start with inputs := [] } : State).loadRom blankImage).respond {}, ?_, by decide⟩
  show execLoadimg (some blankImage) { start with inputs := [] } = _
  unfold execLoadimg
  rw [if_neg (by decide)]
  show Host.Outcome.next (if blankImage.length ≠ Config.romSize then _ else _) = _
  rw [if_neg (by rw [blankImage_length]; decide)]
theorem witness_LogIsAppendOnlyAndNeverReadBack :
    ∃ t, step (queued (.request { cmd := 0x02, addr := 0x02000000 })) = .next t ∧
      t.log = [⟨.read, 0x02000000, 4⟩] := ⟨_, rfl, by decide⟩
theorem witness_LogAppendIsGatedByLogEnabled : start.logEnabled = true ∧ unlogged.logEnabled = false := ⟨rfl, rfl⟩
/-- Each condition of 60_exceptions.md R171 is met by a request. -/
theorem witness_EveryConditionIsReported :
    [requestConditions { cmd := 0x02, addr := 0x02000000 } start, requestConditions { cmd := 0x30 } start,
      requestConditions { cmd := 0x31 } start, requestConditions { cmd := 0x10, addr := 0x00500004 } start,
      requestConditions { cmd := 0x07 } start, requestConditions { cmd := 0x02 } start] =
    [[.outOfRange], [.imageLoadError], [.logSinkError], [.translationMiss], [.badCommand], []] := by decide
theorem witness_EveryStepKeepsTheStateWellFormed :
    (queued (.request { cmd := 0x06, addr := 0x70003FFF, wdata := 5 })).wf ∧
      ∃ t, step (queued (.request { cmd := 0x06, addr := 0x70003FFF, wdata := 5 })) = .next t :=
  ⟨by decide, _, rfl⟩
/-- `DUMP` at the top of the address space, inside a word, and of no bytes (log entry 13 for the last but one). -/
theorem witness_DumpListsTheWordsOfTheRange :
    [dumpWords 0xFFFFFFFE 0xFFFFFFFF, dumpWords 0x10003 2, dumpWords 0x10002 0, dumpWords 0x10000 0] =
      [[0xFFFFFFFC], [0x10000, 0x10004], [0x10000], []] := by decide

end Sys2Proof.Tests
end

/-! ## The two cache instances and the log: what a request neither reads nor writes

10_state.md R26 and R28. That a request does not read a part of the state is said as: it commutes with replacing that
part. What it does to the part then follows, by replacing the part with itself. -/

namespace Sys2Proof.Machine

open Vocabulary

section
variable (s : State)

/-- LOADIMG as one equation (44_host_control.md R150, R152): it fails as 60_exceptions.md R171 no. 2 says, or replaces the
whole ROM by the image it carries. -/
theorem execLoadimg_eq (image : Image) :
    execLoadimg image s = .next
      (if imageLoadFails image s then s.respond { status := .imageLoadError }
       else (s.loadRom (image.getD [])).respond {}) := by
  unfold execLoadimg imageLoadFails
  cases s.romLoaded
  · cases image <;> simp
  · simp

/-- XLATE as one update of the log and the responses (42_translate.md R120). -/
theorem execXlate_eq (va : Word) :
    execXlate va s = .next
      { s with
        log := s.log ++
          if !PageMap.maps s.pageMap va && s.logEnabled then [{ op := .translationMiss, addr := va, size := 0 }] else []
        responses := s.responses ++ [{ rdata := PageMap.translate s.pageMap va }] } := by
  unfold execXlate
  cases PageMap.maps s.pageMap va
  · rw [State.logAppend_eq]
    rfl
  · simp [State.respond]

/-! ### Replacing one cache instance -/

section
variable (c : CacheSel) (k : Cache)

@[simp] theorem State.setCache_cache_self : s.setCache c (s.cache c) = s := by cases c <;> rfl

theorem State.respond_setCache (r : Response) : (s.setCache c k).respond r = (s.respond r).setCache c k := by
  cases c <;> rfl

theorem State.loadRom_setCache (b : List Byte) : (s.setCache c k).loadRom b = (s.loadRom b).setCache c k := by
  cases c <;> rfl

theorem State.routerRead_setCache (pa : Word) (n : Byte) (lane : Word → Word) :
    (s.setCache c k).routerRead pa n lane = (s.routerRead pa n lane).setCache c k := by
  rw [State.routerRead_eq, State.routerRead_eq]
  cases c <;> rfl

theorem State.routerWrite_setCache (pa : Word) (n : Byte) (compose : Word → Word) :
    (s.setCache c k).routerWrite pa n compose = (s.routerWrite pa n compose).setCache c k := by
  simp only [State.routerWrite_eq, State.memWrite_eq]
  cases c <;> rfl

theorem imageLoadFails_setCache (image : Image) : imageLoadFails image (s.setCache c k) = imageLoadFails image s := by
  cases c <;> rfl

variable {c} {d : CacheSel} (h : d ≠ c)
include h

theorem State.setCache_comm (k' : Cache) :
    (s.setCache c k).setCache d k' = (s.setCache d k').setCache c k := by
  cases c <;> cases d
  · exact absurd rfl h
  · rfl
  · rfl
  · exact absurd rfl h

theorem State.lineFill_setCache (pa : Word) :
    (s.setCache c k).lineFill d pa = (s.lineFill d pa).setCache c k := by
  rw [State.lineFill_eq, State.lineFill_eq, State.cache_setCache_ne s h]
  cases c <;> cases d
  · exact absurd rfl h
  · rfl
  · rfl
  · exact absurd rfl h

theorem State.cacheRead_setCache (pa : Word) :
    (s.setCache c k).cacheRead d pa = (s.cacheRead d pa).setCache c k := by
  unfold State.cacheRead
  rw [State.cache_setCache_ne s h]
  split
  · rw [State.respond_setCache, State.cache_setCache_ne s h]
  · rw [State.lineFill_setCache s k h, State.respond_setCache, State.cache_setCache_ne _ h]

theorem State.cacheWriteLine_setCache (pa v : Word) :
    (s.setCache c k).cacheWriteLine d pa v = (s.cacheWriteLine d pa v).setCache c k := by
  unfold State.cacheWriteLine
  rw [State.cache_setCache_ne s h, State.setCache_comm s k h]

theorem State.cacheWrite_setCache (pa v : Word) :
    (s.setCache c k).cacheWrite d pa v = (s.cacheWrite d pa v).setCache c k := by
  unfold State.cacheWrite State.writePolicyStep
  rw [State.cacheWriteLine_setCache s k h, State.setCache_params]
  split
  · rw [State.respond_setCache]
  · rw [State.routerWrite_setCache, State.respond_setCache]

end

/-- A request that is neither the read nor the write of an instance does the same whatever that instance holds. -/
theorem exec_setCache {c : CacheSel} {i : Instr} (hr : ∀ pa, i ≠ readOf c pa) (hw : ∀ pa v, i ≠ writeOf c pa v) :
    ∃ t, exec i s = .next t ∧ ∀ k, exec i (s.setCache c k) = .next (t.setCache c k) := by
  cases i with
  | rd8 | rd32 => exact ⟨_, rfl, fun k => congrArg _ (State.routerRead_setCache ..)⟩
  | wr8 | wr32 =>
    refine ⟨_, rfl, fun k => congrArg Host.Outcome.next ?_⟩
    rw [State.routerWrite_setCache, State.respond_setCache]
  | rd16 =>
    refine ⟨_, rfl, fun k => congrArg Host.Outcome.next ?_⟩
    rw [State.setCache_params, State.routerRead_setCache]
  | wr16 =>
    refine ⟨_, rfl, fun k => congrArg Host.Outcome.next ?_⟩
    rw [State.setCache_params, State.routerWrite_setCache, State.respond_setCache]
  | xlate va =>
    refine ⟨_, execXlate_eq s va, fun k => (execXlate_eq ..).trans ?_⟩
    cases c <;> rfl
  | crdd pa | crdi pa =>
    exact ⟨_, rfl, fun k => congrArg _ (State.cacheRead_setCache s k (by rintro rfl; exact hr pa rfl) pa)⟩
  | cwrd pa v | cwri pa v =>
    exact ⟨_, rfl, fun k => congrArg _ (State.cacheWrite_setCache s k (by rintro rfl; exact hw pa v rfl) pa v)⟩
  | loadimg image =>
    refine ⟨_, execLoadimg_eq s image, fun k => (execLoadimg_eq ..).trans (congrArg Host.Outcome.next ?_)⟩
    rw [imageLoadFails_setCache, State.loadRom_setCache, State.respond_setCache, State.respond_setCache,
      ← apply_ite (State.setCache · c k)]
  | logen ok => exact ⟨_, rfl, fun k => by cases ok <;> cases c <;> rfl⟩
  | logdis => exact ⟨_, rfl, fun k => by cases c <;> rfl⟩
  | dump start len =>
    refine ⟨_, execDump_eq s start len, fun k => (execDump_eq ..).trans ?_⟩
    cases c <;> rfl

/-- And it leaves the instance as it was: put the instance itself in its own place. -/
theorem exec_ignores_other_cache {c : CacheSel} {i : Instr}
    (hr : ∀ pa, i ≠ readOf c pa) (hw : ∀ pa v, i ≠ writeOf c pa v) :
    ∃ t, exec i s = .next t ∧ t.cache c = s.cache c ∧
      ∀ k, exec i (s.setCache c k) = .next (t.setCache c k) := by
  obtain ⟨t, ht, hk⟩ := exec_setCache s hr hw
  have hself := hk (s.cache c)
  rw [State.setCache_cache_self, ht] at hself
  have e : t = t.setCache c (s.cache c) := Host.Outcome.next.inj hself
  refine ⟨t, ht, ?_, hk⟩
  rw [e, State.cache_setCache_self]

end

/-- Settles O36: by commuting each operation with the replacement of the instance the request does not select. -/
theorem cacheInstancesAreIndependent : Obligations.CacheInstancesAreIndependent := by
  unfold Obligations.CacheInstancesAreIndependent
  intro i s
  exact ⟨exec_ignores_other_cache (c := .inst) s, exec_ignores_other_cache (c := .data) s⟩

/-! ### Replacing the log -/

section
variable (s : State)

section
variable (l : List LogRecord)

theorem State.routerRead_withLog (pa : Word) (n : Byte) (lane : Word → Word) :
    State.routerRead { s with log := l } pa n lane =
      { s.routerRead pa n lane with
        log := l ++ if s.reports pa then [{ op := .read, addr := pa, size := n }] else [] } := by
  rw [State.routerRead_eq, State.routerRead_eq]
  rfl

theorem State.routerWrite_withLog (pa : Word) (n : Byte) (compose : Word → Word) :
    State.routerWrite { s with log := l } pa n compose =
      { s.routerWrite pa n compose with
        log := l ++ if s.reports pa then [{ op := .write, addr := pa, size := n }] else [] } := by
  simp only [State.routerWrite_eq, State.memWrite_eq]
  rfl

end

/-- A miss appends the records of the fill, a hit none (43_cache.md R133, R134). -/
theorem State.cacheRead_withLog (c : CacheSel) (pa : Word) :
    ∃ rs, ∀ l, State.cacheRead { s with log := l } c pa = { s.cacheRead c pa with log := l ++ rs } := by
  have hc : ∀ l, State.cache { s with log := l } c = s.cache c := fun l => by cases c <;> rfl
  cases h : (s.cache c).hits pa
  · refine ⟨if s.reports pa then (lineWords pa).map fun a => { op := .read, addr := a, size := 4 } else [],
      fun l => ?_⟩
    rw [State.cacheRead_miss _ h, State.cacheRead_miss _ (by rw [hc]; exact h), State.lineFill_eq, State.lineFill_eq]
    cases c <;> rfl
  · refine ⟨[], fun l => ?_⟩
    rw [State.cacheRead_hit _ h, State.cacheRead_hit _ (by rw [hc]; exact h), List.append_nil]
    cases c <;> rfl

/-- Only a write-through can append a record (43_cache.md R137). -/
theorem State.cacheWrite_withLog (c : CacheSel) (pa v : Word) :
    ∃ rs, ∀ l, State.cacheWrite { s with log := l } c pa v = { s.cacheWrite c pa v with log := l ++ rs } := by
  cases h : s.params.writePolicy
  · refine ⟨[], fun l => ?_⟩
    rw [State.cacheWrite_cacheOnly _ _ _ _ h, State.cacheWrite_cacheOnly { s with log := l } _ _ _ h, List.append_nil]
    cases c <;> rfl
  · refine ⟨if s.reports pa then [{ op := .write, addr := pa, size := 4 }] else [], fun l => ?_⟩
    rw [State.cacheWrite_writeThrough _ _ _ _ h, State.cacheWrite_writeThrough { s with log := l } _ _ _ h,
      State.routerWrite_withLog]
    cases c <;> rfl

/-- With any other log in its place a request appends the same records and does otherwise exactly the same. -/
theorem exec_withLog (i : Instr) :
    ∃ t rs, exec i s = .next t ∧ ∀ l, exec i { s with log := l } = .next { t with log := l ++ rs } := by
  cases i with
  | rd8 | rd16 | rd32 => exact ⟨_, _, rfl, fun l => congrArg _ (State.routerRead_withLog s l ..)⟩
  | wr8 | wr16 | wr32 =>
    exact ⟨_, _, rfl, fun l =>
      congrArg (fun u => Host.Outcome.next (State.respond u {})) (State.routerWrite_withLog s l ..)⟩
  | crdd pa | crdi pa =>
    obtain ⟨rs, h⟩ := State.cacheRead_withLog s _ pa
    exact ⟨_, rs, rfl, fun l => congrArg _ (h l)⟩
  | cwrd pa v | cwri pa v =>
    obtain ⟨rs, h⟩ := State.cacheWrite_withLog s _ pa v
    exact ⟨_, rs, rfl, fun l => congrArg _ (h l)⟩
  | xlate va =>
    exact ⟨_, if !PageMap.maps s.pageMap va && s.logEnabled then [{ op := .translationMiss, addr := va, size := 0 }]
      else [], execXlate_eq s va, fun l => execXlate_eq ..⟩
  | loadimg image =>
    refine ⟨_, [], execLoadimg_eq s image, fun l => (execLoadimg_eq ..).trans (congrArg Host.Outcome.next ?_)⟩
    have e : imageLoadFails image { s with log := l } = imageLoadFails image s := rfl
    rw [e, List.append_nil]
    cases imageLoadFails image s <;> rfl
  | logen ok => exact ⟨_, [], rfl, fun l => by rw [List.append_nil]; cases ok <;> rfl⟩
  | logdis => exact ⟨_, [], rfl, fun l => by rw [List.append_nil]; rfl⟩
  | dump start len =>
    exact ⟨_, if s.params.dumpLogs && s.logEnabled then
        ((dumpWords start len).filter fun w => region w = .outOfRange).map fun w => { op := .read, addr := w, size := 4 }
      else [], execDump_eq s start len, fun l => execDump_eq ..⟩

/-- And these records are the ones it appends to its own log: put the log itself in its own place. -/
theorem exec_appends_unread (i : Instr) :
    ∃ t rs, exec i s = .next t ∧ t.log = s.log ++ rs ∧
      ∀ l, exec i { s with log := l } = .next { t with log := l ++ rs } := by
  obtain ⟨t, rs, ht, hl⟩ := exec_withLog s i
  have e : t = { t with log := s.log ++ rs } := Host.Outcome.next.inj (ht.symm.trans (hl s.log))
  exact ⟨t, rs, ht, congrArg State.log e, hl⟩

@[simp] theorem State.issueAccess_log (p : Pseudo) : (s.issueAccess p).log = s.log := rfl

theorem exec_appends {i : Instr} {t : State} (h : exec i s = .next t) : ∃ rs, t.log = s.log ++ rs := by
  obtain ⟨u, hu, hc⟩ := exec_completes s i
  cases hu.symm.trans h
  exact hc.log

/-- A step leaves the log as it was with records appended at its end. -/
theorem step_appends {t : State} (h : step s = .next t) : ∃ rs, t.log = s.log ++ rs := by
  rcases step_cases s with ⟨-, hs⟩ | ⟨r, rest, i, -, -, hs⟩ | ⟨r, rest, e, -, -, hs⟩ | ⟨p, rest, u, -, hu, hs⟩ |
    ⟨vpn, e, rest, -, hs⟩
  · cases hs.symm.trans h
    exact ⟨[], (List.append_nil _).symm⟩
  · exact exec_appends { s with inputs := rest } (hs.symm.trans h)
  · cases hs.symm.trans h
    exact ⟨[], (List.append_nil _).symm⟩
  · cases hs.symm.trans h
    rw [State.issueAccess_log]
    exact exec_appends { s with inputs := rest } hu
  · cases hs.symm.trans h
    exact ⟨[], (List.append_nil _).symm⟩

end

/-- Settles O51: by commuting each operation with the replacement of the log, and by the five cases of a step. -/
theorem logIsAppendOnlyAndNeverReadBack : Obligations.LogIsAppendOnlyAndNeverReadBack := by
  unfold Obligations.LogIsAppendOnlyAndNeverReadBack
  exact ⟨fun s _ => step_appends s, fun i s => exec_appends_unread s i, rfl⟩

end Sys2Proof.Machine

/-! ## The map of physical addresses (20_memory.md §2)

The region of an address is stated here in the vocabulary of the obligations, from its bounds as naturals. -/

namespace Sys2Proof.Machine

open Vocabulary

/-- 20_memory.md R43: `NONE` is what is left when the address is in none of the three ranges. -/
theorem region_eq_outOfRange {pa : Word} :
    region pa = .outOfRange ↔ region pa ≠ .ram ∧ region pa ≠ .spad ∧ region pa ≠ .rom := by
  cases region pa <;> decide

theorem region_eq_ram_iff_inRam (pa : Word) : region pa = .ram ↔ inRam pa = true := by
  rw [region_eq_ram, inRam, decide_eq_true_iff]
  omega

theorem region_eq_rom_iff_inRom (pa : Word) : region pa = .rom ↔ inRom pa = true := by
  rw [region_eq_rom, inRom, decide_eq_true_iff]
  omega

theorem region_eq_spad_iff_inSpad (pa : Word) : region pa = .spad ↔ inSpad pa = true := by
  rw [region_eq_spad, inSpad, decide_eq_true_iff]
  omega

theorem region_eq_outOfRange_iff_outside (pa : Word) : region pa = .outOfRange ↔ outside pa = true := by
  rw [region_eq_outOfRange, ne_eq, ne_eq, ne_eq, region_eq_ram_iff_inRam, region_eq_spad_iff_inSpad,
    region_eq_rom_iff_inRom]
  simp [outside, and_assoc]

/-- Settles O13: by the bounds of each region, and `outOfRange` as the complement of the three. -/
theorem regionDispatchByAddressRange : Obligations.RegionDispatchByAddressRange := by
  unfold Obligations.RegionDispatchByAddressRange
  intro pa
  exact ⟨region_eq_ram_iff_inRam pa, region_eq_rom_iff_inRom pa, region_eq_spad_iff_inSpad pa,
    region_eq_outOfRange_iff_outside pa⟩

end Sys2Proof.Machine

/-! ## Lanes of a word (41_router.md R102)

The laws of `extractLane` and `injectLane` hold for every lane that fits in a word; the router's two widths are such. -/

namespace Sys2Proof.Machine

/-- Settles O16: both widths fit in a word, so the bit laws of `extractLane` and `injectLane` apply at every shift. -/
theorem laneExtractAndInjectAreBitFields : Obligations.LaneExtractAndInjectAreBitFields := by
  unfold Obligations.LaneExtractAndInjectAreBitFields
  intro w v s n hwidth
  have hn : n ≤ 32 := by omega
  constructor
  · intro i
    rw [extractLane_getLsbD w s n i hn, Bool.and_comm]
  · intro i hi
    exact injectLane_getLsbD w v s n i hn hi

end Sys2Proof.Machine

/-! ## The translator (42_translate.md)

What a page's entry says, what `Translate` answers by it, and that only a page-mapping change writes it. -/

namespace Sys2Proof.Machine

open Vocabulary

/-! ### Pages and offsets -/

/-- Addition modulo 2^32 (D16). -/
theorem add_pageOffset (base va : Word) :
    base + pageOffset va = BitVec.ofNat 32 (base.toNat + va.toNat % 4096) := by
  apply BitVec.eq_of_toNat_eq
  rw [BitVec.toNat_add, BitVec.toNat_ofNat, pageOffset_toNat]

theorem toNat_eq_vpnOf_pageOffset (va : Word) : va.toNat = (vpnOf va).toNat * 4096 + (pageOffset va).toNat := by
  rw [vpnOf_toNat, pageOffset_toNat]
  omega

theorem vpnOf_eq_iff {a b : Word} : vpnOf a = vpnOf b ↔ a.toNat / 4096 = b.toNat / 4096 := by
  rw [← BitVec.toNat_inj, vpnOf_toNat, vpnOf_toNat]

/-- Within a page the offsets differ exactly as the addresses do (42_translate.md R124). -/
theorem pageOffset_sub_pageOffset {a b : Word} (h : vpnOf a = vpnOf b) : pageOffset a - pageOffset b = a - b := by
  have hpage := vpnOf_eq_iff.mp h
  apply BitVec.eq_of_toNat_eq
  rw [BitVec.toNat_sub, BitVec.toNat_sub, pageOffset_toNat, pageOffset_toNat]
  omega

/-! ### The entry of a page -/

section
variable {s : State} {va base : Word}

/-- XLATE finds a valid entry exactly when the page is mapped to some base (20_memory.md R60). -/
theorem maps_iff_mapped : PageMap.maps s.pageMap va = true ↔ ∃ base, mapped s va base := by
  unfold PageMap.maps mapped vpnOf
  cases PageMap.entry s.pageMap (va.extractLsb' 12 20) with
  | none => simp
  | some e =>
    obtain ⟨base, valid⟩ := e
    simp

theorem maps_of_mapped (h : mapped s va base) : PageMap.maps s.pageMap va = true := maps_iff_mapped.mpr ⟨base, h⟩

theorem maps_of_not_mapped (h : ∀ base, ¬ mapped s va base) : PageMap.maps s.pageMap va = false := by
  rw [← Bool.not_eq_true, maps_iff_mapped]
  exact not_exists.mpr h

/-- All addresses of a page share its entry (20_memory.md R59). -/
theorem mapped_of_same_page {vb : Word} (hpage : vpnOf va = vpnOf vb) (h : mapped s va base) : mapped s vb base := by
  unfold mapped at h ⊢
  rwa [← vpnOf, ← hpage]

theorem translate_of_mapped (h : mapped s va base) : PageMap.translate s.pageMap va = base + pageOffset va := by
  unfold mapped at h
  unfold PageMap.translate vpnOf
  rw [h]
  rfl

theorem translate_of_not_maps {m : PageMap} (h : PageMap.maps m va = false) : PageMap.translate m va = va := by
  unfold PageMap.maps at h
  unfold PageMap.translate
  cases he : PageMap.entry m (vpnOf va) with
  | none => rfl
  | some e =>
    have hv : e.valid = false := by simpa [he] using h
    simp [hv]

end

/-! ### XLATE -/

section
variable (s : State) {va base : Word}

theorem execXlate_of_mapped (h : mapped s va base) :
    execXlate va s = .next (s.respond { rdata := base + pageOffset va }) := by
  rw [execXlate_eq, maps_of_mapped h, translate_of_mapped h]
  simp [State.respond]

theorem execXlate_of_not_mapped (h : ∀ base, ¬ mapped s va base) :
    execXlate va s = .next
      { s with
        log := recorded s [{ op := .translationMiss, addr := va, size := 0 }]
        responses := s.responses ++ [{ rdata := va }] } := by
  have hmiss := maps_of_not_mapped h
  rw [execXlate_eq, hmiss, translate_of_not_maps hmiss]
  cases hlog : s.logEnabled <;> simp [recorded, hlog]

end

/-- Settles O25: by the two answers of XLATE, on a mapped page and on one that is not. -/
theorem xlateAnswersMappedOrIdentity : Obligations.XlateAnswersMappedOrIdentity := by
  unfold Obligations.XlateAnswersMappedOrIdentity
  intro s va
  constructor
  · intro base h
    rw [← add_pageOffset]
    exact execXlate_of_mapped s h
  · exact execXlate_of_not_mapped s

/-- Settles O26: by page number and offset in numbers, the entry's two cases, and XLATE as one update. -/
theorem translateIsBasePlusPageOffset : Obligations.TranslateIsBasePlusPageOffset := by
  unfold Obligations.TranslateIsBasePlusPageOffset
  refine ⟨fun va => ⟨toNat_eq_vpnOf_pageOffset va, ?_, rfl⟩, fun s va => ⟨?_, ?_, ?_⟩, ?_⟩
  · rw [pageOffset_toNat]
    omega
  · exact fun base h => translate_of_mapped h
  · exact fun h => translate_of_not_maps (maps_of_not_mapped h)
  · exact ⟨_, execXlate_eq s va, rfl⟩
  · exact fun s t va h => congrArg (PageMap.translate · va) h

/-- Settles O27: both addresses get the one base of their page, which cancels, and the offsets are left. -/
theorem samePageAddressesKeepTheirDistance : Obligations.SamePageAddressesKeepTheirDistance := by
  unfold Obligations.SamePageAddressesKeepTheirDistance
  intro s a b base ha hab
  have hpage : vpnOf a = vpnOf b := vpnOf_eq_iff.mpr hab
  calc PageMap.translate s.pageMap a - PageMap.translate s.pageMap b
      = (base + pageOffset a) - (base + pageOffset b) := by
        rw [translate_of_mapped ha, translate_of_mapped (mapped_of_same_page hpage ha)]
    _ = pageOffset a - pageOffset b := add_sub_add_left_eq_sub ..
    _ = a - b := pageOffset_sub_pageOffset hpage

/-! ### Pseudo-requests -/

/-- Decoding the request of an instruction gives the instruction back (30_encoding.md R73 to R76, R80). -/
theorem decode_encode (i : Instr) : decode (encode i) = .ok i := by
  cases i <;> rfl

section
variable {s t : State}

/-- A step takes the request issued last and runs its instruction on the state it was issued in. -/
theorem step_issueNext_encode (s : State) (i : Instr) : step (s.issueNext (encode i)) = exec i s := by
  rw [step, runNext_cons (State.issueNext_inputs s (encode i)), runEvent, runRequest, decode_encode]
  rfl

/-- The step of a pseudo-request is its XLATE with the access issued next (30_encoding.md R83). -/
theorem step_of_pseudo {p : Pseudo} {rest : List Event} (h : s.inputs = .pseudo p :: rest)
    (hx : exec (.xlate p.guest) { s with inputs := rest } = .next t) : step s = .next (t.issueAccess p) := by
  rw [step, runNext_cons h, runEvent, runPseudo, hx]

/-- What XLATE answers is `rdata` of the last response. -/
theorem lastRdata_of_xlate {va : Word} (hx : exec (.xlate va) s = .next t) :
    t.lastRdata = PageMap.translate s.pageMap va := by
  cases (execXlate_eq s va).symm.trans hx
  simp [State.lastRdata]

end

/-- Settles O9: the step of the pseudo-request issues the access at the address XLATE answered, and the step after it
takes that access. -/
theorem pseudoRequestIsTranslationThenAccess : Obligations.PseudoRequestIsTranslationThenAccess := by
  unfold Obligations.PseudoRequestIsTranslationThenAccess
  intro s p rest h
  obtain ⟨t, hx, -⟩ := exec_completes { s with inputs := rest } (.xlate p.guest)
  refine ⟨t, t.issueAccess p, hx, step_of_pseudo h hx, ?_⟩
  rw [State.issueAccess, step_issueNext_encode, lastRdata_of_xlate hx]

/-! ### Who writes the page mapping -/

section
variable {s t : State}

@[simp] theorem State.issueAccess_pageMap (s : State) (p : Pseudo) : (s.issueAccess p).pageMap = s.pageMap := rfl

theorem exec_keeps_pageMap (s : State) {i : Instr} (h : exec i s = .next t) : t.pageMap = s.pageMap := by
  obtain ⟨u, hu, hc⟩ := exec_completes s i
  cases hu.symm.trans h
  exact hc.pageMap

/-- A step keeps the page mapping, or is the change of one page's entry (42_translate.md R122). -/
theorem step_pageMap_cases (h : step s = .next t) :
    t.pageMap = s.pageMap ∨
      ∃ vpn e rest, s.inputs = .setPage vpn e :: rest ∧ t = State.mmuSetPage { s with inputs := rest } vpn e := by
  rcases step_cases s with ⟨-, hs⟩ | ⟨r, rest, i, -, -, hs⟩ | ⟨r, rest, e, -, -, hs⟩ | ⟨p, rest, u, -, hu, hs⟩ |
    ⟨vpn, e, rest, hin, hs⟩
  · cases hs.symm.trans h
    exact .inl rfl
  · exact .inl (exec_keeps_pageMap { s with inputs := rest } (hs.symm.trans h))
  · cases hs.symm.trans h
    exact .inl rfl
  · cases hs.symm.trans h
    exact .inl ((State.issueAccess_pageMap u p).trans (exec_keeps_pageMap { s with inputs := rest } hu))
  · cases hs.symm.trans h
    exact .inr ⟨vpn, e, rest, hin, rfl⟩

end

/-- Settles O28: by the cases of a step, of which only the page-mapping change writes the mapping. -/
theorem pageMappingIsChangedOnlyByTheMmuActor : Obligations.PageMappingIsChangedOnlyByTheMmuActor := by
  unfold Obligations.PageMappingIsChangedOnlyByTheMmuActor
  intro s t h hne
  obtain heq | ⟨vpn, e, rest, hin, rfl⟩ := step_pageMap_cases h
  · exact absurd heq hne
  · exact ⟨vpn, e, rest, hin, rfl⟩

end Sys2Proof.Machine

/-! ## The decomposition of an address by the cache (43_cache.md §1)

What a cache request does depends on the address through index, tag, offset and base, none of which has bits 1:0. -/

namespace Sys2Proof.Machine

open Vocabulary

/-! ### An address and its word address -/

theorem wordAddr_eq_alignWord (pa : Word) : wordAddr pa = alignWord pa := rfl

theorem wordAddr_toNat (pa : Word) : (wordAddr pa).toNat = pa.toNat / 4 * 4 := by
  rw [wordAddr_eq_alignWord, alignWord_toNat]

/-- Tag, index and offset are adjacent: together they are bits 31:2. -/
theorem tag_append_idx_append_off (pa : Word) :
    cacheTag pa ++ cacheIdx pa ++ cacheOff pa = pa.extractLsb' 2 30 := by
  unfold cacheTag cacheIdx cacheOff
  rw [BitVec.extractLsb'_append_extractLsb'_eq_extractLsb' (by rfl)]
  exact BitVec.extractLsb'_append_extractLsb'_eq_extractLsb' (by rfl)

theorem tag_idx_off_append_zero (pa : Word) :
    (cacheTag pa ++ cacheIdx pa ++ cacheOff pa ++ 0#2 : BitVec (20 + 7 + 3 + 2)) = wordAddr pa := by
  apply BitVec.eq_of_toNat_eq
  have hpa := pa.isLt
  rw [wordAddr_toNat, tag_append_idx_append_off, BitVec.toNat_append, BitVec.extractLsb'_toNat,
    Nat.shiftRight_eq_div_pow, Nat.shiftLeft_eq]
  simp only [BitVec.toNat_ofNat, Nat.zero_mod, Nat.or_zero]
  omega

/-- Two addresses conflict when they agree in bits 11:5 and differ in bits 31:12. -/
theorem conflict_iff {a b : Word} :
    (cacheIdx a = cacheIdx b ∧ cacheTag a ≠ cacheTag b) ↔
      (a.toNat / 32 % 128 = b.toNat / 32 % 128 ∧ a.toNat / 4096 ≠ b.toNat / 4096) := by
  rw [ne_eq, ← BitVec.toNat_inj, ← BitVec.toNat_inj, cacheIdx_toNat, cacheIdx_toNat, cacheTag_toNat, cacheTag_toNat]

/-! ### Two addresses in one block or in one word -/

section
variable {a b : Word}

theorem same_block_of_same_word (h : a.toNat / 4 = b.toNat / 4) : a.toNat / 32 = b.toNat / 32 := by omega

theorem cacheOff_eq_of_word (h : a.toNat / 4 = b.toNat / 4) : cacheOff a = cacheOff b := by
  apply BitVec.eq_of_toNat_eq
  rw [cacheOff_toNat, cacheOff_toNat, h]

theorem alignWord_eq_of_word (h : a.toNat / 4 = b.toNat / 4) : alignWord a = alignWord b := by
  apply BitVec.eq_of_toNat_eq
  rw [alignWord_toNat, alignWord_toNat, h]

theorem Cache.hits_eq_of_block (k : Cache) (h : a.toNat / 32 = b.toNat / 32) : k.hits a = k.hits b := by
  obtain ⟨hidx, htag⟩ := same_block_iff.mp h
  unfold Cache.hits
  rw [hidx, htag]

variable (s : State) (c : CacheSel)

theorem lineWords_eq_of_block (h : a.toNat / 32 = b.toNat / 32) : lineWords a = lineWords b := by
  unfold lineWords
  rw [lineBase_eq_of_block h]

theorem State.filledLine_eq_of_block (h : a.toNat / 32 = b.toNat / 32) : s.filledLine a = s.filledLine b := by
  obtain ⟨-, htag⟩ := same_block_iff.mp h
  unfold State.filledLine
  congr 1
  apply Vector.toArray_inj.mp
  simp only [lineBase_eq_of_block h]

theorem State.reports_eq_of_block (h : a.toNat / 32 = b.toNat / 32) : s.reports a = s.reports b := by
  unfold State.reports
  rw [region_eq_of_block h]

theorem State.lineFill_eq_of_block (h : a.toNat / 32 = b.toNat / 32) : s.lineFill c a = s.lineFill c b := by
  obtain ⟨hidx, -⟩ := same_block_iff.mp h
  rw [State.lineFill_eq, State.lineFill_eq, hidx, State.filledLine_eq_of_block s h,
    State.reports_eq_of_block s h, lineWords_eq_of_block h]

/-- A cache read never uses bits 1:0 (43_cache.md R130, R134). -/
theorem State.cacheRead_eq_of_word (h : a.toNat / 4 = b.toNat / 4) : s.cacheRead c a = s.cacheRead c b := by
  have hblock := same_block_of_same_word h
  obtain ⟨hidx, -⟩ := same_block_iff.mp hblock
  have hhits := (s.cache c).hits_eq_of_block hblock
  cases hb : (s.cache c).hits b
  · rw [State.cacheRead_miss s hb, State.cacheRead_miss s (hhits.trans hb), State.lineFill_eq_of_block s c hblock,
      State.memRead_eq_of_word s (alignWord_eq_of_word h)]
  · rw [State.cacheRead_hit s hb, State.cacheRead_hit s (hhits.trans hb), hidx, cacheOff_eq_of_word h]

theorem State.cacheWriteLine_eq_of_word (v : Word) (h : a.toNat / 4 = b.toNat / 4) :
    s.cacheWriteLine c a v = s.cacheWriteLine c b v := by
  obtain ⟨hidx, htag⟩ := same_block_iff.mp (same_block_of_same_word h)
  unfold State.cacheWriteLine
  rw [hidx, htag, cacheOff_eq_of_word h]

/-- The word stored is the same one at every address of a word (20_memory.md R51). -/
theorem State.memWrite_eq_of_word (v : Word) (h : a.toNat / 4 = b.toNat / 4) : s.memWrite a v = s.memWrite b v := by
  rw [State.memWrite_eq, State.memWrite_eq, alignWord_eq_of_word h, region_eq_of_block (same_block_of_same_word h)]

theorem State.reports_of_not_outside (h : outside a = false) : s.reports a = false := by
  have hin : region a ≠ .outOfRange := by
    rw [ne_eq, region_eq_outOfRange_iff_outside, h]
    decide
  simp [State.reports, hin]

/-- A word write in some region does not use bits 1:0; out of range its record holds the address as given. -/
theorem State.routerWrite_eq_of_word (v : Word) (h : a.toNat / 4 = b.toNat / 4) (ha : outside a = false) :
    (s.routerWrite a 4 fun _ => v) = s.routerWrite b 4 fun _ => v := by
  rw [State.routerWrite_eq, State.routerWrite_eq, ← State.reports_eq_of_block s (same_block_of_same_word h),
    State.reports_of_not_outside s ha, State.memWrite_eq_of_word s v h]
  rfl

/-- A cache write never uses bits 1:0, but for the record of an out-of-range write-through (43_cache.md R136, R137). -/
theorem State.cacheWrite_eq_of_word (v : Word) (h : a.toNat / 4 = b.toNat / 4)
    (hrec : outside a = false ∨ s.params.writePolicy = .cacheOnly) : s.cacheWrite c a v = s.cacheWrite c b v := by
  have hline := State.cacheWriteLine_eq_of_word s c v h
  cases hp : s.params.writePolicy with
  | cacheOnly => rw [State.cacheWrite_cacheOnly s c a v hp, State.cacheWrite_cacheOnly s c b v hp, hline]
  | writeThrough =>
    have ha : outside a = false := hrec.resolve_right (by simp [hp])
    rw [State.cacheWrite_writeThrough s c a v hp, State.cacheWrite_writeThrough s c b v hp, hline,
      State.routerWrite_eq_of_word s v h ha]

theorem exec_readOf (pa : Word) : exec (readOf c pa) s = .next (s.cacheRead c pa) := by cases c <;> rfl

theorem exec_writeOf (pa v : Word) : exec (writeOf c pa v) s = .next (s.cacheWrite c pa v) := by cases c <;> rfl

end

/-- Settles O30: by each part of the address as a number, and by the cache operations as functions of these parts. -/
theorem cacheAddressDecomposition : Obligations.CacheAddressDecomposition := by
  unfold Obligations.CacheAddressDecomposition
  refine ⟨fun pa => ⟨cacheIdx_toNat pa, cacheTag_toNat pa, cacheOff_toNat pa, ?_, tag_idx_off_append_zero pa⟩,
    fun pa => ⟨rfl, rfl, rfl, rfl⟩, fun a b => same_block_iff.symm, fun a b => conflict_iff, fun a b h => ?_,
    fun s c pa v => ?_⟩
  · rw [lineBase_toNat]
    omega
  · have hblock := same_block_of_same_word h
    obtain ⟨hidx, htag⟩ := same_block_iff.mp hblock
    exact ⟨hidx, htag, cacheOff_eq_of_word h, lineBase_eq_of_block hblock⟩
  · have hword : pa.toNat / 4 = (wordAddr pa).toNat / 4 := by
      rw [wordAddr_toNat]
      omega
    rw [exec_readOf, exec_readOf, exec_writeOf, exec_writeOf]
    exact ⟨congrArg _ (State.cacheRead_eq_of_word s c hword),
      fun hrec => congrArg _ (State.cacheWrite_eq_of_word s c v hword hrec)⟩

end Sys2Proof.Machine

/-! ## Host control (44_host_control.md)

The logging switch: one write of `log_enabled`, then the default answer. -/

namespace Sys2Proof.Machine

/-- 44_host_control.md R154, through the state's operations. -/
theorem exec_logdis (s : State) : exec .logdis s = .next ((s.setLogEnabled false).respond {}) := rfl

/-- Settles O50: the write of `log_enabled` and the default answer are two record updates, of different fields. -/
theorem logdisClearsLogEnabled : Obligations.LogdisClearsLogEnabled := by
  unfold Obligations.LogdisClearsLogEnabled
  intro s
  rw [exec_logdis, State.respond, State.setLogEnabled]

end Sys2Proof.Machine

/-! ## The log with logging disabled (60_exceptions.md R176)

Every record of every request is appended under `log_enabled`, so with logging disabled each operation that reports keeps
the log it found. -/

namespace Sys2Proof.Machine

theorem State.logAppend_of_enabled {s : State} (h : s.logEnabled = true) (op : LogOp) (a : Word) (n : Byte) :
    s.logAppend op a n = { s with log := s.log ++ [{ op := op, addr := a, size := n }] } :=
  if_pos h

section
variable {s : State} (h : s.logEnabled = false)
include h

theorem State.logAppend_of_disabled (op : LogOp) (a : Word) (n : Byte) : s.logAppend op a n = s :=
  if_neg (by simp [h])

theorem State.reports_of_disabled (pa : Word) : s.reports pa = false := by
  rw [State.reports, h, Bool.false_and]

theorem State.routerRead_log_of_disabled (pa : Word) (n : Byte) (lane : Word → Word) :
    (s.routerRead pa n lane).log = s.log := by
  simp [State.routerRead_eq, State.reports_of_disabled h]

theorem State.routerWrite_log_of_disabled (pa : Word) (n : Byte) (compose : Word → Word) :
    (s.routerWrite pa n compose).log = s.log := by
  simp [State.routerWrite_eq, State.reports_of_disabled h]

theorem State.cacheRead_log_of_disabled (c : CacheSel) (pa : Word) : (s.cacheRead c pa).log = s.log := by
  cases hit : (s.cache c).hits pa
  · rw [State.cacheRead_miss s hit, State.respond_log, State.lineFill_eq, State.setCache_log]
    simp [State.reports_of_disabled h]
  · rw [State.cacheRead_hit s hit, State.respond_log]

theorem State.cacheWrite_log_of_disabled (c : CacheSel) (pa v : Word) : (s.cacheWrite c pa v).log = s.log := by
  cases hp : s.params.writePolicy
  · rw [State.cacheWrite_cacheOnly s c pa v hp, State.respond_log, State.cacheWriteLine, State.setCache_log]
  · simp only [State.cacheWrite_writeThrough s c pa v hp, State.respond_log, State.routerWrite_log_of_disabled h]

/-- With logging disabled no instruction keeps a record, LOGEN included: it reports nothing itself. -/
theorem exec_keeps_log_of_disabled (i : Instr) : ∃ t, exec i s = .next t ∧ t.log = s.log := by
  cases i with
  | rd8 | rd16 | rd32 => exact ⟨_, rfl, State.routerRead_log_of_disabled h ..⟩
  | wr8 | wr16 | wr32 => exact ⟨_, rfl, (State.respond_log ..).trans (State.routerWrite_log_of_disabled h ..)⟩
  | crdd | crdi => exact ⟨_, rfl, State.cacheRead_log_of_disabled h ..⟩
  | cwrd | cwri => exact ⟨_, rfl, State.cacheWrite_log_of_disabled h ..⟩
  | xlate va => exact ⟨_, execXlate_eq s va, by simp [h]⟩
  | loadimg image => exact ⟨_, execLoadimg_eq s image, by split <;> rfl⟩
  | logen ok => exact ⟨_, rfl, by cases ok <;> rfl⟩
  | logdis => exact ⟨_, rfl, rfl⟩
  | dump start len => exact ⟨_, execDump_eq s start len, by simp [h]⟩

end

/-- LOGEN with a usable sink (44_host_control.md R153), through the state's operations. -/
theorem exec_logen_true (s : State) : exec (.logen true) s = .next ((s.setLogEnabled true).respond {}) := rfl

/-- Settles O52: by `LogAppend` with logging on and off, and because neither the instruction nor LOGEN then touches the
log. -/
theorem logAppendIsGatedByLogEnabled : Obligations.LogAppendIsGatedByLogEnabled := by
  unfold Obligations.LogAppendIsGatedByLogEnabled
  intro s op a n
  refine ⟨fun h => State.logAppend_of_enabled h op a n, fun h => State.logAppend_of_disabled h op a n, fun h i => ?_⟩
  obtain ⟨t, ht, hlog⟩ := exec_keeps_log_of_disabled h i
  refine ⟨t, _, ht, exec_logen_true t, ?_⟩
  rw [State.respond_log, State.setLogEnabled_log, hlog]

end Sys2Proof.Machine

/-! ## Encoding (30_encoding.md)

The decoder against the encoder, the four tables of commands, and the codes of statuses and log records. -/

namespace Sys2Proof.Machine

open Vocabulary

/-- A request decodes to an instruction only by that instruction's command (30_encoding.md R80). -/
theorem cmd_encode_of_decode {r : Request} {i : Instr} (h : decode r = .ok i) : (encode i).cmd = r.cmd := by
  obtain ⟨cmd, addr, wdata, len, image, sinkOk⟩ := r
  unfold decode at h
  dsimp only at h ⊢
  split at h <;> cases h <;> rfl

/-- Settles O2: by `decode_encode`, and by the command of what a request decodes to. -/
theorem decodeOfEncodeIsTheInstruction : Obligations.DecodeOfEncodeIsTheInstruction := by
  unfold Obligations.DecodeOfEncodeIsTheInstruction
  exact ⟨decode_encode, fun r i h => ⟨cmd_encode_of_decode h, (decode_encode i).trans h.symm⟩⟩

/-- Settles O3: by the arms of the decoder, each of which reads only the fields its command uses. -/
theorem unusedRequestFieldsHaveNoEffect : Obligations.UnusedRequestFieldsHaveNoEffect := by
  unfold Obligations.UnusedRequestFieldsHaveNoEffect
  intro r q hcmd haddr hwdata hlen himage hsink
  obtain ⟨c, addr, wdata, len, image, sinkOk⟩ := r
  obtain ⟨c', addr', wdata', len', image', sinkOk'⟩ := q
  obtain rfl : c = c' := hcmd
  unfold usesAddr at haddr
  unfold usesWdata at hwdata
  dsimp only [usesLen, usesImage, usesSinkOk] at haddr hwdata hlen himage hsink
  unfold decode
  dsimp only
  split <;> simp_all

theorem decode_isOk_iff {r : Request} : (∃ i, decode r = .ok i) ↔ r.cmd ∈ definedCmds := by
  constructor
  · rintro ⟨i, h⟩
    rw [← cmd_encode_of_decode h]
    cases i <;> simp [encode, definedCmds]
  · intro h
    obtain ⟨c, addr, wdata, len, image, sinkOk⟩ := r
    simp only [definedCmds, List.mem_cons, List.not_mem_nil, or_false] at h
    rcases h with rfl | rfl | rfl | rfl | rfl | rfl | rfl | rfl | rfl | rfl | rfl | rfl | rfl | rfl | rfl <;>
      exact ⟨_, rfl⟩

/-- The fifteen commands by unit and function bits (30_encoding.md R72 to R76). -/
theorem mem_definedCmds_iff_bits (c : Byte) :
    c ∈ definedCmds ↔
      (c.extractLsb' 4 4 = 0#4 ∧ c.getLsbD 3 = false ∧ c.extractLsb' 0 2 ≠ 3#2) ∨
      (c.extractLsb' 4 4 = 1#4 ∧ c.extractLsb' 0 4 = 0#4) ∨
      (c.extractLsb' 4 4 = 2#4 ∧ c.getLsbD 3 = false ∧ c.getLsbD 1 = false) ∨
      (c.extractLsb' 4 4 = 3#4 ∧ c.extractLsb' 2 2 = 0#2) := by
  revert c
  decide

/-- Settles O4: the bits of the four tables pick out the fifteen commands, which are those that decode. -/
theorem definedCommandsFollowUnitAndFunctionBits : Obligations.DefinedCommandsFollowUnitAndFunctionBits := by
  unfold Obligations.DefinedCommandsFollowUnitAndFunctionBits
  intro r
  dsimp only
  rw [← mem_definedCmds_iff_bits]
  exact ⟨decode_isOk_iff.mpr, decode_of_undefined⟩

theorem LogOp.ofCode_code (op : LogOp) : LogOp.ofCode (LogOp.code op) = some op := by
  cases op <;> rfl

theorem LogOp.code_of_ofCode {c : BitVec 2} {op : LogOp} (h : LogOp.ofCode c = some op) : LogOp.code op = c := by
  unfold LogOp.ofCode at h
  split at h <;> cases h <;> rfl

theorem LogRecord.decode_encode {r : LogRecord} (h : LogRecord.wellFormed r = true) :
    LogRecord.decode (LogRecord.encode r) = some r := by
  unfold LogRecord.decode LogRecord.encode
  dsimp only
  rw [LogOp.ofCode_code]
  exact if_pos h

theorem LogRecord.encode_of_decode {f : BitVec 2 × BitVec 32 × BitVec 8} {r : LogRecord}
    (h : LogRecord.decode f = some r) : LogRecord.encode r = f ∧ LogRecord.wellFormed r = true := by
  obtain ⟨c, a, n⟩ := f
  unfold LogRecord.decode at h
  dsimp only at h
  split at h
  · cases h
  · next op hop =>
    split at h
    · next hwf =>
      cases h
      exact ⟨by rw [LogRecord.encode, LogOp.code_of_ofCode hop], hwf⟩
    · cases h

/-- Settles O5: statuses by their four codes, and log records by the three codes of an operation. -/
theorem statusAndRecordCodesRoundTrip : Obligations.StatusAndRecordCodesRoundTrip := by
  unfold Obligations.StatusAndRecordCodesRoundTrip
  refine ⟨by decide, fun st => by cases st <;> rfl, fun r => LogRecord.decode_encode,
    fun f r => LogRecord.encode_of_decode, fun a n => rfl⟩

/-- Settles O1: each command byte is in its arm of the decoder. -/
theorem specEncodingsDecodeToTheirOperations : Obligations.SpecEncodingsDecodeToTheirOperations := by
  unfold Obligations.SpecEncodingsDecodeToTheirOperations
  decide

end Sys2Proof.Machine

/-! ## Steps (10_state.md §7, 30_encoding.md §4, 60_exceptions.md §1)

Each kind of input as one equation of a step, and what every step keeps and gives. -/

namespace Sys2Proof.Machine

open Vocabulary

section
variable {s t : State} {rest : List Event}

theorem step_of_request {r : Request} {i : Instr} (h : s.inputs = .request r :: rest) (hd : decode r = .ok i) :
    step s = exec i { s with inputs := rest } := by
  rw [step, runNext_cons h, runEvent, runRequest, hd]

theorem step_of_reserved {r : Request} {e : Reject} (h : s.inputs = .request r :: rest) (hd : decode r = .error e) :
    step s = .next (State.answerBadCommand { s with inputs := rest }) := by
  rw [step, runNext_cons h, runEvent, runRequest, hd]

theorem step_of_setPage {vpn : Vpn} {e : Option PageEntry} (h : s.inputs = .setPage vpn e :: rest) :
    step s = .next (State.mmuSetPage { s with inputs := rest } vpn e) := by
  rw [step, runNext_cons h, runEvent]

/-- What an instruction completes in (60_exceptions.md R170), for a given next state. -/
theorem completes_of_exec {i : Instr} (h : exec i s = .next t) : Completes s t := by
  obtain ⟨u, hu, hc⟩ := exec_completes s i
  cases hu.symm.trans h
  exact hc

/-- What a step does to all but inputs and responses: nothing, what one instruction does, or one page-mapping change. -/
theorem step_effect_cases (h : step s = .next t) :
    (∃ inputs responses, t = { s with inputs := inputs, responses := responses }) ∨
      (∃ i u rest inputs, exec i { s with inputs := rest } = .next u ∧ t = { u with inputs := inputs }) ∨
      ∃ vpn e rest, t = State.mmuSetPage { s with inputs := rest } vpn e := by
  rcases step_cases s with ⟨-, hs⟩ | ⟨r, rest, i, -, -, hs⟩ | ⟨r, rest, e, -, -, hs⟩ | ⟨p, rest, u, -, hu, hs⟩ |
    ⟨vpn, e, rest, -, hs⟩
  · cases hs.symm.trans h
    exact .inl ⟨_, _, rfl⟩
  · exact .inr (.inl ⟨i, t, rest, t.inputs, hs.symm.trans h, rfl⟩)
  · cases hs.symm.trans h
    exact .inl ⟨_, _, rfl⟩
  · cases hs.symm.trans h
    exact .inr (.inl ⟨_, u, rest, _, hu, rfl⟩)
  · cases hs.symm.trans h
    exact .inr (.inr ⟨vpn, e, rest, rfl⟩)

end

/-- Settles O6: the request is the head of the input sequence. -/
theorem stepRunsTheDecodedRequest : Obligations.StepRunsTheDecodedRequest := by
  unfold Obligations.StepRunsTheDecodedRequest
  exact fun s r rest i => step_of_request

/-- Settles O7: a command outside the fifteen is rejected, and the rejection is answered by one response. -/
theorem reservedCommandAnswersBadCommandOnly : Obligations.ReservedCommandAnswersBadCommandOnly := by
  unfold Obligations.ReservedCommandAnswersBadCommandOnly
  intro s r rest h hcmd
  rw [step_of_reserved h (decode_of_undefined hcmd), State.answerBadCommand, State.respond]

/-- Settles O8: the update of the mapping, read back at its own page and at every other. -/
theorem stepAppliesPageMappingChange : Obligations.StepAppliesPageMappingChange := by
  unfold Obligations.StepAppliesPageMappingChange
  intro s vpn e rest h
  refine ⟨_, step_of_setPage h, ?_, fun j hj => ?_, rfl⟩
  · rw [State.mmuSetPage_pageMap, PageMap.entry_update_self]
  · rw [State.mmuSetPage_pageMap, PageMap.entry_update_ne _ _ _ hj]

/-- Settles O10: there is no head to take. -/
theorem stepWithoutInputChangesNothing : Obligations.StepWithoutInputChangesNothing := by
  unfold Obligations.StepWithoutInputChangesNothing
  exact fun s => runNext_nil

/-- Settles O11: a request is an instruction, which completes, or is answered as a bad command; the other steps are the
cases of `step_cases`. -/
theorem everyRequestCompletesWithOneResponse : Obligations.EveryRequestCompletesWithOneResponse := by
  unfold Obligations.EveryRequestCompletesWithOneResponse
  constructor
  · intro s r rest h
    cases hd : decode r with
    | error e => exact ⟨_, _, step_of_reserved h hd, rfl, rfl⟩
    | ok i =>
      obtain ⟨t, ht, hc⟩ := exec_completes { s with inputs := rest } i
      obtain ⟨resp, hresp⟩ := hc.response
      exact ⟨t, resp, (step_of_request h hd).trans ht, hc.inputs, hresp⟩
  · intro s
    rcases step_cases s with ⟨-, hs⟩ | ⟨r, rest, i, -, -, hs⟩ | ⟨r, rest, e, -, -, hs⟩ | ⟨p, rest, u, -, -, hs⟩ |
      ⟨vpn, e, rest, -, hs⟩
    · exact ⟨_, hs⟩
    · obtain ⟨t, ht, -⟩ := exec_completes { s with inputs := rest } i
      exact ⟨t, hs.trans ht⟩
    · exact ⟨_, hs⟩
    · exact ⟨_, hs⟩
    · exact ⟨_, hs⟩

/-- Settles O12: an instruction keeps the parameters, and so does every other effect of a step. -/
theorem parametersNeverChange : Obligations.ParametersNeverChange := by
  unfold Obligations.ParametersNeverChange
  intro s t h
  rcases step_effect_cases h with ⟨inputs, responses, rfl⟩ | ⟨i, u, rest, inputs, hu, rfl⟩ | ⟨vpn, e, rest, rfl⟩
  · rfl
  · exact (completes_of_exec hu).params
  · rfl

/-- A page just given a valid entry is mapped by it. -/
theorem mapped_mmuSetPage (s : State) (va base : Word) :
    mapped (s.mmuSetPage (vpnOf va) (some { base := base, valid := true })) va base :=
  PageMap.entry_update_self s.pageMap (vpnOf va) (some { base := base, valid := true })

/-- The step of an XLATE of a mapped page (42_translate.md R120). -/
theorem step_of_xlate_mapped {t : State} {va base : Word} {rest : List Event}
    (h : t.inputs = .request (encode (.xlate va)) :: rest) (hmap : mapped t va base) :
    step t = .next (State.respond { t with inputs := rest } { rdata := base + pageOffset va }) :=
  (step_of_request h (decode_encode (.xlate va))).trans (execXlate_of_mapped { t with inputs := rest } hmap)

/-- Settles O29: the step of the change gives the page its entry, and XLATE then finds the page mapped. -/
theorem pageMappingChangeTakesEffectAtOnce : Obligations.PageMappingChangeTakesEffectAtOnce := by
  unfold Obligations.PageMappingChangeTakesEffectAtOnce
  intro s va base rest h
  exact ⟨_, _, step_of_setPage h, step_of_xlate_mapped rfl (mapped_mmuSetPage _ va base), rfl, ⟨rfl, rfl⟩,
    ⟨rfl, rfl⟩, rfl⟩

end Sys2Proof.Machine

/-! ## Words and blocks (20_memory.md §2 and §3)

The words of the backing store in the vocabulary of the obligations: four bytes, lowest address first. -/

namespace Sys2Proof.Machine

open Vocabulary

theorem region_wordAddr (pa : Word) : region (wordAddr pa) = region pa := region_alignWord pa

/-- Settles O14: the region depends on bits 31:5 alone. -/
theorem blockLiesInOneRegion : Obligations.BlockLiesInOneRegion := by
  unfold Obligations.BlockLiesInOneRegion
  exact ⟨fun a b h => region_eq_of_block h, region_wordAddr⟩

section
variable (s : State) (pa : Word)

/-- The word of an address is what `MemRead` answers there (20_memory.md R47, R48). -/
theorem wordOf_eq_memRead : wordOf s pa = s.memRead pa := by
  rw [← pack4_byteOf (s.memRead pa), State.byteOf_memRead s pa (by omega : 0 < 4),
    State.byteOf_memRead s pa (by omega : 1 < 4), State.byteOf_memRead s pa (by omega : 2 < 4),
    State.byteOf_memRead s pa (by omega : 3 < 4), pack4_eq_append, BitVec.add_zero]
  rfl

/-- A scratchpad word is its four bytes, packed little-endian (20_memory.md R46, R47). -/
theorem readWord_spadBase_add (o : Nat) :
    Memory.readWord s.spad (Config.spadBase + o) =
      (s.spadByte (o + 3) ++ s.spadByte (o + 2) ++ s.spadByte (o + 1) ++ s.spadByte o : BitVec (8 + 8 + 8 + 8)) := by
  rw [Memory.readWord, pack4_eq_append]
  simp only [State.spadByte, Nat.add_assoc]

variable {s pa}

/-- `MemRead` in a region is the word at the word address in the region's store (20_memory.md R48). -/
theorem State.memRead_of_ram (h : region pa = .ram) : s.memRead pa = Memory.readWord s.ram (wordAddr pa).toNat := by
  rw [State.memRead, region_alignWord, h]
  rfl

theorem State.memRead_of_rom (h : region pa = .rom) : s.memRead pa = Memory.readWord s.rom (wordAddr pa).toNat := by
  rw [State.memRead, region_alignWord, h]
  rfl

theorem State.memRead_of_spad (h : region pa = .spad) : s.memRead pa = Memory.readWord s.spad (wordAddr pa).toNat := by
  rw [State.memRead, region_alignWord, h]
  rfl

end

/-- Settles O15: by the region of the address, whose base and word alignment make the index exact. -/
theorem memReadIsTheContainingWord : Obligations.MemReadIsTheContainingWord := by
  unfold Obligations.MemReadIsTheContainingWord
  intro s pa
  have hw := wordAddr_toNat pa
  refine ⟨fun h => ?_, fun h => ?_, fun h => ?_, fun h => ?_, (wordOf_eq_memRead s pa).symm⟩
  · rw [State.memRead_of_ram ((region_eq_ram_iff_inRam pa).mpr h), State.ramWord, Config.ramBase]
    congr 1
    omega
  · have hrom := (region_eq_rom_iff_inRom pa).mpr h
    have hbounds := region_eq_rom.mp hrom
    rw [State.memRead_of_rom hrom, State.romWord, Config.romBase]
    congr 1
    omega
  · have hspad := (region_eq_spad_iff_inSpad pa).mpr h
    have hbounds := region_eq_spad.mp hspad
    have hbase : (wordAddr pa).toNat = Config.spadBase + ((wordAddr pa).toNat - 0x70000000) := by
      rw [Config.spadBase]
      omega
    exact (State.memRead_of_spad hspad).trans ((congrArg _ hbase).trans (readWord_spadBase_add s _))
  · exact State.memRead_outOfRange s ((region_eq_outOfRange_iff_outside pa).mpr h)

/-! ### Byte lanes (41_router.md R102) -/

section
variable (w v : Word) {j k n : Nat}

/-- Injecting `n` bytes at byte `k` replaces bytes `k` to `k + n - 1`; what falls above byte 3 is lost. -/
theorem byteOf_injectLane (hn : n ≤ 4) (hj : j < 4) :
    byteOf (injectLane w (8 * k) (8 * n) v) j = if k ≤ j ∧ j < k + n then byteOf v (j - k) else byteOf w j := by
  apply BitVec.eq_of_getLsbD_eq
  intro i hi
  rw [byteOf_getLsbD, injectLane_getLsbD w v _ _ _ (by omega) (by omega)]
  by_cases h : k ≤ j ∧ j < k + n
  · rw [if_pos h, if_pos (by omega), byteOf_getLsbD]
    congr 2
    omega
  · rw [if_neg h, if_neg (by omega), byteOf_getLsbD]

theorem extractLane_byte (k : Nat) : extractLane w (8 * k) 8 = (byteOf w k).setWidth 32 := by
  apply BitVec.eq_of_getLsbD_eq
  intro i hi
  rw [extractLane_getLsbD w _ _ _ (by omega), BitVec.getLsbD_setWidth, byteOf_getLsbD]
  simp [hi, Bool.and_comm]

/-- Bytes past byte 3 of a word are zero, so the upper byte of a half-word lane at byte 3 is. -/
theorem byteOf_of_le (h : 4 ≤ k) : byteOf w k = 0 := by
  apply BitVec.eq_of_getLsbD_eq
  intro i hi
  rw [byteOf_getLsbD, BitVec.getLsbD_of_ge w _ (by omega)]
  simp

theorem extractLane_half (k : Nat) :
    extractLane w (8 * k) 16 = (byteOf w (k + 1) ++ byteOf w k : BitVec (8 + 8)).setWidth 32 := by
  apply BitVec.eq_of_getLsbD_eq
  intro i hi
  rw [extractLane_getLsbD w _ _ _ (by omega), BitVec.getLsbD_setWidth, BitVec.getLsbD_append, byteOf_getLsbD,
    byteOf_getLsbD]
  by_cases h0 : i < 8
  · simp [h0, hi, show i < 16 by omega]
  · by_cases h1 : i < 16
    · simp [h0, h1, hi, show i - 8 < 8 by omega, show 8 * (k + 1) + (i - 8) = 8 * k + i by omega]
    · simp [h0, h1, show ¬ i - 8 < 8 by omega]

end

/-! ### Where a lane stands in its word (20_memory.md R50 to R52) -/

section
variable (pa : Word)

theorem laneShift_byteMask : laneShift byteMask pa = 8 * (pa.toNat % 4) := by
  rw [laneShift, byteMask, and3_toNat, Nat.mul_comm]

/-- The address of the half-word lane: bit 0 is cleared under mask 0x2 and kept under 0x3 (20_memory.md R52). -/
def halfAddr (m : Config.HalfMask) (pa : Word) : Word := if m = .mask2 then pa &&& 0xFFFFFFFE#32 else pa

theorem and2_toNat : (pa &&& 2#32).toNat = pa.toNat / 2 % 2 * 2 := by
  rw [BitVec.toNat_and]
  exact (Nat.and_two_pow pa.toNat 1).trans (by rw [Nat.toNat_testBit, pow_one])

theorem clearBit0_toNat : (pa &&& 0xFFFFFFFE#32).toNat = pa.toNat / 2 * 2 := by
  have hshift : pa &&& 0xFFFFFFFE#32 = (pa >>> 1) <<< 1 := by
    ext i hi
    have hmask : (0xFFFFFFFE#32 : Word).getLsbD i = decide (1 ≤ i) :=
      (by decide : ∀ j : Fin 32, (0xFFFFFFFE#32 : Word).getLsbD j.1 = decide (1 ≤ j.1)) ⟨i, hi⟩
    simp only [← BitVec.getLsbD_eq_getElem, BitVec.getLsbD_and, hmask, BitVec.getLsbD_shiftLeft,
      BitVec.getLsbD_ushiftRight]
    by_cases h : 1 ≤ i
    · simp [h, hi, show ¬ i < 1 by omega]
    · simp [show i = 0 by omega]
  have hpa := pa.isLt
  rw [hshift, BitVec.toNat_shiftLeft, BitVec.toNat_ushiftRight, Nat.shiftLeft_eq, Nat.shiftRight_eq_div_pow]
  omega

theorem halfAddr_div (m : Config.HalfMask) : (halfAddr m pa).toNat / 4 = pa.toNat / 4 := by
  cases m
  · rw [halfAddr, if_pos rfl, clearBit0_toNat]
    omega
  · rfl

theorem laneShift_halfMask (m : Config.HalfMask) :
    laneShift (halfMaskWord m) pa = 8 * ((halfAddr m pa).toNat % 4) := by
  cases m
  · rw [laneShift, halfMaskWord, and2_toNat, halfAddr, if_pos rfl, clearBit0_toNat]
    omega
  · exact laneShift_byteMask pa

end

end Sys2Proof.Machine

/-! ## Router requests (41_router.md)

A router read and a router write as one update each in the vocabulary of the obligations; the widths differ in the lane
alone. -/

namespace Sys2Proof.Machine

open Vocabulary

section
variable (s : State) (pa : Word)

/-- The records that depend on an access being out of range, in the two ways they are written. -/
theorem append_reports_eq_recorded (rs : List LogRecord) :
    (s.log ++ if s.reports pa then rs else []) = recorded s (if outside pa then rs else []) := by
  have hout := region_eq_outOfRange_iff_outside pa
  unfold recorded State.reports
  cases s.logEnabled
  · simp
  · by_cases h : outside pa = true
    · simp [h, hout.mpr h]
    · simp [h, mt hout.mp h]

theorem storable_iff : storable pa = true ↔ region pa = .ram ∨ region pa = .spad := by
  rw [storable, Bool.or_eq_true, region_eq_ram_iff_inRam, region_eq_spad_iff_inSpad]

/-! ### Reads -/

variable (n : Byte)

/-- A router read (41_router.md R103 to R105): the record and the lane of the word, and nothing else. -/
theorem State.routerRead_eq_recorded (lane : Word → Word) :
    s.routerRead pa n lane =
      { s with
        log := recorded s (ifOutside .read pa n)
        responses := s.responses ++ [{ rdata := lane (wordOf s pa) }] } := by
  rw [State.routerRead_eq, append_reports_eq_recorded, wordOf_eq_memRead]
  rfl

/-- The byte of an address in its word. -/
theorem byteOf_wordOf_self : byteOf (wordOf s pa) (pa.toNat % 4) = s.byteAt pa := by
  rw [wordOf_eq_memRead, State.byteAt_eq_byteOf]

theorem wordOf_halfAddr (m : Config.HalfMask) : wordOf s (halfAddr m pa) = wordOf s pa := by
  rw [wordOf_eq_memRead, wordOf_eq_memRead, State.memRead_eq_of_word s (alignWord_eq_of_word (halfAddr_div pa m))]

/-- The byte after an address, in the word of that address: there is none after byte 3. -/
theorem byteOf_wordOf_succ :
    byteOf (wordOf s pa) (pa.toNat % 4 + 1) = if pa.toNat % 4 = 3 then 0#8 else s.byteAt (pa + 1) := by
  split
  · exact byteOf_of_le _ (by omega)
  · have hpa := pa.isLt
    have hsucc : (pa + 1).toNat = pa.toNat + 1 := by
      rw [BitVec.toNat_add, show (1 : Word).toNat = 1 from rfl]
      omega
    rw [State.byteAt_eq_byteOf, wordOf_eq_memRead, State.memRead_eq_of_word s
      (alignWord_eq_of_word (show pa.toNat / 4 = (pa + 1).toNat / 4 by omega))]
    congr 1
    omega

theorem byteLane_wordOf : extractLane (wordOf s pa) (laneShift byteMask pa) 8 = (s.byteAt pa).setWidth 32 := by
  rw [laneShift_byteMask, extractLane_byte, byteOf_wordOf_self]

/-- The half-word lane under either mask: its byte, and the next one unless the word ends before it (R52). -/
theorem halfLane_wordOf (m : Config.HalfMask) :
    extractLane (wordOf s pa) (laneShift (halfMaskWord m) pa) 16 =
      ((if (halfAddr m pa).toNat % 4 = 3 then 0#8 else s.byteAt (halfAddr m pa + 1)) ++ s.byteAt (halfAddr m pa) :
        BitVec (8 + 8)).setWidth 32 := by
  rw [laneShift_halfMask, ← wordOf_halfAddr s pa m, extractLane_half, byteOf_wordOf_succ, byteOf_wordOf_self]

end

/-- Settles O17: the whole word is the lane. -/
theorem rd32AnswersTheContainingWord : Obligations.Rd32AnswersTheContainingWord := by
  unfold Obligations.Rd32AnswersTheContainingWord
  intro s pa
  exact congrArg Host.Outcome.next (State.routerRead_eq_recorded s pa 4 _)

/-- Settles O18: the lane starts at the half-word's address, and its upper byte is the next one in the same word. -/
theorem rd16AnswersTheHalfWordLane : Obligations.Rd16AnswersTheHalfWordLane := by
  unfold Obligations.Rd16AnswersTheHalfWordLane
  intro s pa
  rw [← halfAddr]
  dsimp only
  rw [← halfLane_wordOf]
  exact congrArg Host.Outcome.next (State.routerRead_eq_recorded s pa 2 _)

/-- Settles O19: the byte lane is the byte at the address. -/
theorem rd8AnswersTheByte : Obligations.Rd8AnswersTheByte := by
  unfold Obligations.Rd8AnswersTheByte
  intro s pa
  rw [← byteLane_wordOf]
  exact congrArg Host.Outcome.next (State.routerRead_eq_recorded s pa 1 _)

/-! ### Writes -/

section
variable (s : State) (pa : Word) (n : Byte) (compose : Word → Word)

/-- What a router write leaves alone and what it appends and answers (41_router.md R100, R106 to R108). -/
theorem routerWrite_frame :
    let t := (s.routerWrite pa n compose).respond {}
    t.log = recorded s (ifOutside .write pa n) ∧ answersVoid s t ∧ sameCaches s t ∧ sameConfigRomAndControl s t := by
  rw [State.routerWrite_eq, append_reports_eq_recorded, State.memWrite_eq]
  exact ⟨rfl, rfl, ⟨rfl, rfl⟩, rfl, rfl, rfl, rfl, rfl, rfl⟩

/-- Reads after a router write are reads after its word write. -/
theorem State.memRead_routerWrite (a : Word) :
    (s.routerWrite pa n compose).memRead a =
      if storable pa = true ∧ wordAddr a = wordAddr pa then compose (s.memRead pa) else s.memRead a := by
  rw [State.routerWrite_eq]
  refine (State.memRead_memWrite s pa (compose (s.memRead pa)) a).trans ?_
  simp only [storable_iff, wordAddr_eq_alignWord]

theorem State.byteAt_routerWrite (a : Word) :
    (s.routerWrite pa n compose).byteAt a =
      if storable pa = true ∧ wordAddr a = wordAddr pa then byteOf (compose (wordOf s pa)) (a.toNat % 4)
      else s.byteAt a := by
  rw [State.routerWrite_eq, wordOf_eq_memRead]
  refine (State.byteAt_memWrite s pa (compose (s.memRead pa)) a).trans ?_
  simp only [storable_iff, wordAddr_eq_alignWord]

@[simp] theorem State.byteAt_respond (r : Response) (a : Word) : (s.respond r).byteAt a = s.byteAt a := rfl

end

section
variable {s : State} {a b : Word}

theorem wordAddr_eq_iff : wordAddr a = wordAddr b ↔ a.toNat / 4 = b.toNat / 4 := by
  rw [← BitVec.toNat_inj, wordAddr_toNat, wordAddr_toNat]
  omega

/-- A byte is the lane of its own word, so equal words have equal bytes. -/
theorem byteOf_wordOf_of_word (h : wordAddr a = wordAddr b) : byteOf (wordOf s b) (a.toNat % 4) = s.byteAt a := by
  rw [wordOf_eq_memRead, ← State.memRead_eq_of_word s (show alignWord a = alignWord b from h), State.byteAt_eq_byteOf]

end

/-- Settles O20: the composed word is the data. -/
theorem wr32StoresTheContainingWord : Obligations.Wr32StoresTheContainingWord := by
  unfold Obligations.Wr32StoresTheContainingWord
  intro s pa v
  refine ⟨_, rfl, fun a => ?_, routerWrite_frame s pa 4 _⟩
  rw [State.byteAt_respond, State.byteAt_routerWrite, byteOf]

/-- Injecting `n` bytes at `h` into the word of `h`, byte by byte: the bytes of the lane that lie in the word are the
data's, all others are as before. -/
theorem byteAt_routerWrite_injectLane (s : State) (pa h v a : Word) (size : Byte) {n : Nat} (hn : n ≤ 4)
    (hword : h.toNat / 4 = pa.toNat / 4) :
    (s.routerWrite pa size fun w => injectLane w (8 * (h.toNat % 4)) (8 * n) v).byteAt a =
      if storable pa = true ∧ h.toNat / 4 = a.toNat / 4 ∧ h.toNat ≤ a.toNat ∧ a.toNat < h.toNat + n then
        byteOf v (a.toNat - h.toNat)
      else s.byteAt a := by
  rw [State.byteAt_routerWrite, byteOf_injectLane _ _ hn (by omega)]
  by_cases hp : storable pa = true ∧ wordAddr a = wordAddr pa
  · obtain ⟨hstore, ha⟩ := hp
    have ha4 := wordAddr_eq_iff.mp ha
    rw [if_pos ⟨hstore, ha⟩, byteOf_wordOf_of_word ha]
    by_cases hl : h.toNat % 4 ≤ a.toNat % 4 ∧ a.toNat % 4 < h.toNat % 4 + n
    · rw [if_pos hl, if_pos ⟨hstore, by omega, by omega, by omega⟩]
      congr 1
      omega
    · rw [if_neg hl, if_neg (fun hc => hl (by omega))]
  · rw [if_neg hp, if_neg (fun hc => hp ⟨hc.1, wordAddr_eq_iff.mpr (by omega)⟩)]

/-- Settles O21: the lane of two bytes at the half-word's address. -/
theorem wr16StoresTheHalfWordLane : Obligations.Wr16StoresTheHalfWordLane := by
  unfold Obligations.Wr16StoresTheHalfWordLane
  intro s pa v
  rw [← halfAddr]
  refine ⟨_, rfl, fun a => ?_, routerWrite_frame s pa 2 _⟩
  rw [State.byteAt_respond, laneShift_halfMask,
    byteAt_routerWrite_injectLane s pa _ v a 2 (by omega : 2 ≤ 4) (halfAddr_div pa _)]
  generalize halfAddr s.params.halfMask pa = h
  have hself : a = h ↔ a.toNat = h.toNat := BitVec.toNat_inj.symm
  have hsucc : a = h + 1 ↔ a.toNat = (h.toNat + 1) % 2 ^ 32 := by
    rw [← BitVec.toNat_inj, BitVec.toNat_add]
    rfl
  have ha := a.isLt
  simp only [hself, hsucc]
  by_cases h0 : storable pa = true ∧ a.toNat = h.toNat
  · rw [if_pos h0, if_pos ⟨h0.1, by omega, by omega, by omega⟩, h0.2, Nat.sub_self]
    rfl
  · rw [if_neg h0]
    by_cases h1 : storable pa = true ∧ h.toNat % 4 ≠ 3 ∧ a.toNat = (h.toNat + 1) % 2 ^ 32
    · have hdiff : a.toNat - h.toNat = 1 := by omega
      rw [if_pos h1, if_pos ⟨h1.1, by omega, by omega, by omega⟩, hdiff]
      rfl
    · rw [if_neg h1, if_neg]
      rintro ⟨hstore, hword, hle, hlt⟩
      rcases (by omega : a.toNat = h.toNat ∨ a.toNat = h.toNat + 1) with he | he
      · exact h0 ⟨hstore, he⟩
      · exact h1 ⟨hstore, by omega, by omega⟩

/-- Settles O22: the lane of one byte at the address. -/
theorem wr8StoresTheByte : Obligations.Wr8StoresTheByte := by
  unfold Obligations.Wr8StoresTheByte
  intro s pa v
  refine ⟨_, rfl, fun a => ?_, routerWrite_frame s pa 1 _⟩
  rw [State.byteAt_respond, laneShift_byteMask,
    byteAt_routerWrite_injectLane s pa pa v a 1 (by omega : 1 ≤ 4) rfl]
  by_cases h : storable pa = true ∧ a = pa
  · rw [if_pos h, h.2, if_pos ⟨h.1, rfl, le_rfl, Nat.lt_succ_self _⟩, Nat.sub_self, byteOf]
  · rw [if_neg h, if_neg (fun hc => h ⟨hc.1, BitVec.eq_of_toNat_eq (by omega)⟩)]

end Sys2Proof.Machine

/-! ## A word written and read back, and writes to ROM (41_router.md §4, 20_memory.md §5) -/

namespace Sys2Proof.Machine

open Vocabulary

theorem readsAs_rd32 (s : State) (pa : Word) : readsAs (.rd32 pa) s (wordOf s pa) :=
  ⟨_, rd32AnswersTheContainingWord s pa, rfl⟩

@[simp] theorem State.memRead_respond (s : State) (r : Response) (pa : Word) :
    (s.respond r).memRead pa = s.memRead pa := rfl

/-- Settles O23: RD32 answers the word, which the write left as the data or as it was. -/
theorem wordWriteThenReadRoundTrip : Obligations.WordWriteThenReadRoundTrip := by
  unfold Obligations.WordWriteThenReadRoundTrip
  intro s pa v
  refine ⟨_, rfl, ?_⟩
  have hread := readsAs_rd32 ((s.routerWrite pa 4 fun _ => v).respond {}) pa
  simpa only [wordOf_eq_memRead, State.memRead_respond, State.memRead_routerWrite, and_true] using hread

/-- A router write to ROM does nothing at all (20_memory.md R58). -/
theorem State.routerWrite_of_inRom (s : State) {pa : Word} (h : inRom pa = true) (n : Byte) (compose : Word → Word) :
    s.routerWrite pa n compose = s := by
  have hrom := (region_eq_rom_iff_inRom pa).mpr h
  rw [State.routerWrite_eq, State.memWrite_eq]
  simp [State.reports, hrom]

end Sys2Proof.Machine

/-! ## Caches (43_cache.md)

What a cache read and a cache write leave in each line of each instance, in the stores and in the log; the statements
about hits, misses, staleness and eviction follow from these. -/

namespace Sys2Proof.Machine

open Vocabulary

/-! ### Residency

`resident` is by definition the model's hit test `Cache.hits`, so the lemmas about the one apply to the other. -/

section
variable {s t : State} {c : CacheSel} {a b : Word}

theorem idxBits_eq_of_block (h : sameBlock a b) : idxBits a = idxBits b := (same_block_iff.mp h).1

theorem lineAt_eq_of_idx (h : idxBits a = idxBits b) : lineAt s c a = lineAt s c b := by
  rw [lineAt, lineAt, h]

theorem resident_iff : resident s c a = true ↔ (lineAt s c a).valid = true ∧ (lineAt s c a).tag = tagBits a := by
  rw [resident, Bool.and_eq_true, decide_eq_true_iff]

theorem resident_eq_of_block (h : sameBlock a b) : resident s c a = resident s c b :=
  (s.cache c).hits_eq_of_block h

/-- A resident block keeps every conflicting block out (43_cache.md R130). -/
theorem not_resident_of_conflict (hb : resident s c b = true) (hidx : idxBits a = idxBits b)
    (htag : tagBits a ≠ tagBits b) : resident s c a = false := by
  rw [← Bool.not_eq_true, resident_iff, lineAt_eq_of_idx hidx, (resident_iff.mp hb).2]
  exact fun h => htag h.2.symm

theorem resident_congr (h : lineAt t c a = lineAt s c a) : resident t c a = resident s c a := by
  rw [resident, resident, h]

end

/-! ### One line replaced -/

section
variable (s : State) (c : CacheSel)

theorem State.line_setCache_setLine (i j : BitVec 7) (l : Line) (d : CacheSel) :
    ((s.setCache c ((s.cache c).setLine i l)).cache d).line j =
      if d = c ∧ j = i then l else (s.cache d).line j := by
  by_cases hd : d = c
  · subst hd
    rw [State.cache_setCache_self, Cache.line_setLine]
    simp only [true_and]
  · rw [State.cache_setCache_ne s hd, if_neg (fun h => hd h.1)]

variable (pa v : Word)

/-- The line a cache write leaves (43_cache.md R136). -/
def State.writtenLine : Line :=
  { (lineAt s c pa).setWord (slotBits pa) v with tag := tagBits pa, valid := true }

theorem State.cacheWriteLine_eq :
    s.cacheWriteLine c pa v = s.setCache c ((s.cache c).setLine (idxBits pa) (s.writtenLine c pa v)) := rfl

theorem State.writtenLine_word (k : BitVec 3) :
    (s.writtenLine c pa v).word k = if k = slotBits pa then v else (lineAt s c pa).word k :=
  Line.word_setWord (lineAt s c pa) (slotBits pa) v k

end

/-! ### Cache reads -/

section
variable (s : State) (c : CacheSel) (pa : Word)

/-- The eight records of a fill are those of its words, in order (43_cache.md R133). -/
theorem fillRecords_eq :
    fillRecords pa = if outside pa then (lineWords pa).map fun a => { op := .read, addr := a, size := 4 } else [] := by
  have hbase : blockAddr pa = lineBase pa := rfl
  simp [fillRecords, lineWords, hbase]

theorem State.lineFill_log : (s.lineFill c pa).log = recorded s (fillRecords pa) := by
  rw [State.lineFill_eq, State.setCache_log, append_reports_eq_recorded, fillRecords_eq]

/-- What a cache read leaves in each line: a miss fills its own (43_cache.md R133 to R135). -/
theorem State.line_cacheRead (d : CacheSel) (j : BitVec 7) :
    ((s.cacheRead c pa).cache d).line j =
      if resident s c pa = false ∧ d = c ∧ j = idxBits pa then s.filledLine pa else (s.cache d).line j := by
  cases h : resident s c pa
  · rw [State.cacheRead_miss s h, State.cache_respond, State.lineFill_eq]
    simp only [true_and]
    cases c <;> exact State.line_setCache_setLine { s with log := _ } _ (cacheIdx pa) j (s.filledLine pa) d
  · rw [State.cacheRead_hit s h, State.cache_respond, if_neg (by simp)]

theorem State.cacheRead_log :
    (s.cacheRead c pa).log = recorded s (if resident s c pa then [] else fillRecords pa) := by
  cases h : resident s c pa
  · rw [State.cacheRead_miss s h, State.respond_log, State.lineFill_log]
    rfl
  · rw [State.cacheRead_hit s h, State.respond_log]
    simp [recorded]

/-- A cache read writes no store (43_cache.md R134). -/
theorem State.cacheRead_frame :
    sameStores s (s.cacheRead c pa) ∧ sameConfigRomAndControl s (s.cacheRead c pa) := by
  cases h : resident s c pa
  · rw [State.cacheRead_miss s h, State.lineFill_eq]
    cases c <;> exact ⟨⟨rfl, rfl⟩, rfl, rfl, rfl, rfl, rfl, rfl⟩
  · rw [State.cacheRead_hit s h]
    exact ⟨⟨rfl, rfl⟩, rfl, rfl, rfl, rfl, rfl, rfl⟩

theorem wordOf_congr {s t : State} (hstores : sameStores s t) (hrom : t.rom = s.rom) (pa : Word) :
    wordOf t pa = wordOf s pa := by
  rw [wordOf_eq_memRead, wordOf_eq_memRead, State.memRead_congr hstores.1 hrom hstores.2]

theorem wordOf_cacheRead (b : Word) : wordOf (s.cacheRead c pa) b = wordOf s b := by
  obtain ⟨hstores, -, -, hrom, -⟩ := State.cacheRead_frame s c pa
  exact wordOf_congr hstores hrom b

variable {s c pa}

theorem exec_readOf_of_resident (h : resident s c pa = true) :
    exec (readOf c pa) s = .next (s.respond { rdata := (lineAt s c pa).word (slotBits pa) }) := by
  rw [exec_readOf, State.cacheRead_hit s h]
  rfl

theorem readsAs_of_resident (h : resident s c pa = true) :
    readsAs (readOf c pa) s ((lineAt s c pa).word (slotBits pa)) :=
  ⟨_, exec_readOf_of_resident h, rfl⟩

theorem State.cacheRead_responses_of_not_resident (h : resident s c pa = false) :
    (s.cacheRead c pa).responses = s.responses ++ [{ rdata := wordOf s pa }] := by
  rw [State.cacheRead_miss s h, State.respond_responses, State.lineFill_eq, State.setCache_responses,
    wordOf_eq_memRead]

theorem readsAs_of_not_resident (h : resident s c pa = false) : readsAs (readOf c pa) s (wordOf s pa) :=
  ⟨_, exec_readOf s c pa, State.cacheRead_responses_of_not_resident h⟩

theorem lineAt_cacheRead_of_not_resident (h : resident s c pa = false) :
    lineAt (s.cacheRead c pa) c pa = s.filledLine pa := by
  rw [lineAt, State.line_cacheRead, if_pos ⟨h, rfl, rfl⟩]

/-- After a cache read its block is resident. -/
theorem resident_cacheRead (s : State) (c : CacheSel) (pa : Word) : resident (s.cacheRead c pa) c pa = true := by
  cases h : resident s c pa
  · rw [resident_iff, lineAt_cacheRead_of_not_resident h]
    exact ⟨rfl, rfl⟩
  · rw [resident_congr, h]
    rw [lineAt, State.line_cacheRead, if_neg (by simp [h])]
    rfl

theorem filledLine_word_eq_wordOf (s : State) (pa : Word) (k : BitVec 3) :
    (s.filledLine pa).word k = wordOf s (blockAddr pa + 4 * k.setWidth 32) := by
  rw [State.filledLine_word, wordOf_eq_memRead]
  rfl

end

/-- Settles O31: a hit only responds. -/
theorem cacheReadHitOnlyAnswers : Obligations.CacheReadHitOnlyAnswers := by
  unfold Obligations.CacheReadHitOnlyAnswers
  exact fun s c pa => exec_readOf_of_resident

/-- Settles O32: a miss leaves the filled line in its place and every other line where it was. -/
theorem cacheReadMissFillsOneLine : Obligations.CacheReadMissFillsOneLine := by
  unfold Obligations.CacheReadMissFillsOneLine
  intro s c pa h
  refine ⟨s.cacheRead c pa, exec_readOf s c pa, ?_⟩
  rw [lineAt_cacheRead_of_not_resident h, State.cacheRead_log, h]
  refine ⟨rfl, rfl, filledLine_word_eq_wordOf s pa, fun d j hdj => ?_,
    State.cacheRead_responses_of_not_resident h, rfl, State.cacheRead_frame s c pa⟩
  rw [State.line_cacheRead, if_neg]
  rintro ⟨-, hd, hj⟩
  exact hdj.elim (· hd) (· hj)

/-! ### Cache writes -/

section
variable (s : State) (c : CacheSel) (pa v : Word)

/-- The write policy does not reach the caches (43_cache.md R137). -/
theorem State.cache_cacheWrite (d : CacheSel) : (s.cacheWrite c pa v).cache d = (s.cacheWriteLine c pa v).cache d := by
  cases h : s.params.writePolicy
  · rw [State.cacheWrite_cacheOnly s c pa v h, State.cache_respond]
  · rw [State.cacheWrite_writeThrough s c pa v h]
    cases d <;> rfl

theorem State.line_cacheWrite (d : CacheSel) (j : BitVec 7) :
    ((s.cacheWrite c pa v).cache d).line j =
      if d = c ∧ j = idxBits pa then s.writtenLine c pa v else (s.cache d).line j := by
  rw [State.cache_cacheWrite, State.cacheWriteLine_eq, State.line_setCache_setLine]

theorem lineAt_cacheWrite : lineAt (s.cacheWrite c pa v) c pa = s.writtenLine c pa v := by
  rw [lineAt, State.line_cacheWrite, if_pos ⟨rfl, rfl⟩]

/-- A cache write writes its line, under either policy (43_cache.md R136). -/
theorem cacheWrite_writesLine : writesLine s (s.cacheWrite c pa v) c pa v := by
  unfold writesLine
  rw [lineAt_cacheWrite]
  refine ⟨rfl, rfl, State.writtenLine_word s c pa v, fun d j hdj => ?_⟩
  rw [State.line_cacheWrite, if_neg]
  rintro ⟨hd, hj⟩
  exact hdj.elim (· hd) (· hj)

theorem cacheWrite_answersVoid : answersVoid s (s.cacheWrite c pa v) := by
  cases h : s.params.writePolicy
  · rw [State.cacheWrite_cacheOnly s c pa v h]
    cases c <;> rfl
  · rw [State.cacheWrite_writeThrough s c pa v h, State.routerWrite_eq, State.memWrite_eq]
    rfl

theorem cacheWrite_control : sameConfigRomAndControl s (s.cacheWrite c pa v) := by
  cases h : s.params.writePolicy
  · rw [State.cacheWrite_cacheOnly s c pa v h]
    cases c <;> exact ⟨rfl, rfl, rfl, rfl, rfl, rfl⟩
  · rw [State.cacheWrite_writeThrough s c pa v h, State.routerWrite_eq, State.memWrite_eq]
    exact ⟨rfl, rfl, rfl, rfl, rfl, rfl⟩

/-- After a cache write its block is resident, and its line holds the data in the slot of the address alone. -/
theorem resident_cacheWrite {pb : Word} (h : sameBlock pa pb) : resident (s.cacheWrite c pa v) c pb = true := by
  rw [← resident_eq_of_block h, resident_iff, lineAt_cacheWrite]
  exact ⟨rfl, rfl⟩

theorem readsAs_cacheWrite {pb : Word} (h : sameBlock pa pb) :
    readsAs (readOf c pb) (s.cacheWrite c pa v)
      (if slotBits pb = slotBits pa then v else (lineAt s c pb).word (slotBits pb)) := by
  have hidx := idxBits_eq_of_block h
  have hread := readsAs_of_resident (resident_cacheWrite s c pa v h)
  rwa [← lineAt_eq_of_idx hidx, lineAt_cacheWrite, State.writtenLine_word, lineAt_eq_of_idx hidx] at hread

theorem readsAs_cacheWrite_self : readsAs (readOf c pa) (s.cacheWrite c pa v) v := by
  simpa only [if_true] using readsAs_cacheWrite s c pa v (pb := pa) rfl

variable {s}

theorem cacheWrite_stores_of_cacheOnly (h : s.params.writePolicy = .cacheOnly) :
    sameStores s (s.cacheWrite c pa v) ∧ (s.cacheWrite c pa v).log = s.log := by
  rw [State.cacheWrite_cacheOnly s c pa v h]
  cases c <;> exact ⟨⟨rfl, rfl⟩, rfl⟩

theorem cacheWrite_stores_of_writeThrough (h : s.params.writePolicy = .writeThrough) :
    (s.cacheWrite c pa v).ram = (s.routerWrite pa 4 fun _ => v).ram ∧
      (s.cacheWrite c pa v).spad = (s.routerWrite pa 4 fun _ => v).spad ∧
      (s.cacheWrite c pa v).rom = (s.routerWrite pa 4 fun _ => v).rom ∧
      (s.cacheWrite c pa v).log = (s.routerWrite pa 4 fun _ => v).log := by
  rw [State.cacheWrite_writeThrough s c pa v h]
  exact ⟨rfl, rfl, rfl, rfl⟩

variable {c pa v}

theorem wordOf_cacheWrite_of_cacheOnly (h : s.params.writePolicy = .cacheOnly) (b : Word) :
    wordOf (s.cacheWrite c pa v) b = wordOf s b := by
  obtain ⟨-, -, hrom, -⟩ := cacheWrite_control s c pa v
  exact wordOf_congr (cacheWrite_stores_of_cacheOnly c pa v h).1 hrom b

theorem State.memRead_cacheWrite_of_writeThrough (h : s.params.writePolicy = .writeThrough) (b : Word) :
    (s.cacheWrite c pa v).memRead b =
      if storable pa = true ∧ wordAddr b = wordAddr pa then v else s.memRead b := by
  obtain ⟨hram, hspad, hrom, -⟩ := cacheWrite_stores_of_writeThrough c pa v h
  rw [State.memRead_congr hram hrom hspad, State.memRead_routerWrite]

end

/-- Settles O24: the router's part of each write does nothing in ROM. -/
theorem romWritesHaveNoEffect : Obligations.RomWritesHaveNoEffect := by
  unfold Obligations.RomWritesHaveNoEffect
  intro s pa v hrom
  constructor
  · rintro i (rfl | rfl | rfl) <;>
      exact congrArg (fun u => Host.Outcome.next (State.respond u {})) (State.routerWrite_of_inRom s hrom _ _)
  · intro c
    refine ⟨_, exec_writeOf s c pa v, ?_⟩
    obtain ⟨-, -, hromSame, -⟩ := cacheWrite_control s c pa v
    have hvoid := cacheWrite_answersVoid s c pa v
    cases hp : s.params.writePolicy
    · obtain ⟨hstores, hlog⟩ := cacheWrite_stores_of_cacheOnly c pa v hp
      exact ⟨hstores, hromSame, hlog, hvoid⟩
    · obtain ⟨hram, hspad, -, hlog⟩ := cacheWrite_stores_of_writeThrough c pa v hp
      rw [State.routerWrite_of_inRom s hrom] at hram hspad hlog
      exact ⟨⟨hram, hspad⟩, hromSame, hlog, hvoid⟩

/-- Settles O33: the line is written under either policy, and this policy does nothing more. -/
theorem cacheOnlyWriteWritesItsLineAlone : Obligations.CacheOnlyWriteWritesItsLineAlone := by
  unfold Obligations.CacheOnlyWriteWritesItsLineAlone
  intro s c pa v h
  obtain ⟨hstores, hlog⟩ := cacheWrite_stores_of_cacheOnly c pa v h
  exact ⟨_, exec_writeOf s c pa v, cacheWrite_writesLine s c pa v, cacheWrite_answersVoid s c pa v, hlog, hstores,
    cacheWrite_control s c pa v⟩

/-- Settles O34: the stores and the log are those of the router write that WR32 is. -/
theorem writeThroughWriteAlsoStoresTheWord : Obligations.WriteThroughWriteAlsoStoresTheWord := by
  unfold Obligations.WriteThroughWriteAlsoStoresTheWord
  intro s c pa v h
  obtain ⟨hram, hspad, hrom, hlog⟩ := cacheWrite_stores_of_writeThrough c pa v h
  refine ⟨_, _, exec_writeOf s c pa v, cacheWrite_writesLine s c pa v, cacheWrite_answersVoid s c pa v, rfl, hlog, hram,
    hspad, fun a => ?_, cacheWrite_control s c pa v⟩
  rw [State.byteAt_congr hram hrom hspad, State.byteAt_routerWrite, byteOf]

/-- Settles O35: the other slots of the written line are the old line's. -/
theorem writeMissLeavesSevenStaleWords : Obligations.WriteMissLeavesSevenStaleWords := by
  unfold Obligations.WriteMissLeavesSevenStaleWords
  intro s c pa v pb _ hblock hslot
  refine ⟨_, exec_writeOf s c pa v, resident_cacheWrite s c pa v hblock, ?_⟩
  have hread := readsAs_cacheWrite s c pa v hblock
  rwa [if_neg hslot, ← lineAt_eq_of_idx (idxBits_eq_of_block hblock)] at hread

/-- Settles O38: the data is in the line, and the stores, which RD32 and DUMP read, are as before. -/
theorem cacheOnlyWriteIsLocal : Obligations.CacheOnlyWriteIsLocal := by
  unfold Obligations.CacheOnlyWriteIsLocal
  intro s c pa v h
  refine ⟨_, exec_writeOf s c pa v, readsAs_cacheWrite_self s c pa v, fun pb => ?_, fun d hd => ?_, fun start len => ?_⟩
  · rw [← wordOf_cacheWrite_of_cacheOnly h]
    exact readsAs_rd32 _ pb
  · rw [State.cache_cacheWrite, State.cacheWriteLine_eq, State.cache_setCache_ne s hd]
  · refine ⟨_, _, execDump_eq _ start len, execDump_eq s start len, ?_⟩
    simp only [List.getLast?_append, List.getLast?_singleton, Option.some_or]
    simp only [← wordOf_eq_memRead, wordOf_cacheWrite_of_cacheOnly h]

/-- Settles O44: the line holds the data whatever the policy, and no word of a store changed. -/
theorem droppedWriteThroughStillUpdatesTheCache : Obligations.DroppedWriteThroughStillUpdatesTheCache := by
  unfold Obligations.DroppedWriteThroughStillUpdatesTheCache
  intro s c pa v h hstore
  refine ⟨_, exec_writeOf s c pa v, readsAs_cacheWrite_self s c pa v, ?_⟩
  have hword : wordOf (s.cacheWrite c pa v) pa = wordOf s pa := by
    rw [wordOf_eq_memRead, wordOf_eq_memRead, State.memRead_cacheWrite_of_writeThrough h, if_neg (by simp [hstore])]
  rw [← hword]
  exact readsAs_rd32 _ pa

/-! ### Eviction (43_cache.md §4) -/

/-- Settles O39: the second read leaves the second block resident, so the first is not, and its next read fills. -/
theorem conflictingReadEvicts : Obligations.ConflictingReadEvicts := by
  unfold Obligations.ConflictingReadEvicts
  intro s c a b hidx htag
  have hb := resident_cacheRead (s.cacheRead c a) c b
  have ha := not_resident_of_conflict hb hidx htag
  refine ⟨_, _, _, exec_readOf s c a, exec_readOf _ c b, ha, hb, exec_readOf _ c a, fun k => ?_⟩
  rw [lineAt_cacheRead_of_not_resident ha, filledLine_word_eq_wordOf, wordOf_cacheRead, wordOf_cacheRead]

/-- A read of a conflicting block in between makes the next read answer the backing store's word. -/
theorem readsAs_after_conflict (s : State) (c : CacheSel) {a b : Word} (hidx : idxBits a = idxBits b)
    (htag : tagBits a ≠ tagBits b) : readsAs (readOf c a) (s.cacheRead c b) (wordOf s a) := by
  rw [← wordOf_cacheRead s c b a]
  exact readsAs_of_not_resident (not_resident_of_conflict (resident_cacheRead s c b) hidx htag)

/-- Bit 12 is the lowest of the tag. -/
theorem conflict_flip_bit12 (a : Word) :
    idxBits a = idxBits (a ^^^ 0x1000#32) ∧ tagBits a ≠ tagBits (a ^^^ 0x1000#32) := by
  unfold idxBits tagBits
  rw [BitVec.extractLsb'_xor, BitVec.extractLsb'_xor, show BitVec.extractLsb' 5 7 0x1000#32 = 0#7 by decide,
    show BitVec.extractLsb' 12 20 0x1000#32 = 1#20 by decide, BitVec.xor_zero]
  refine ⟨rfl, fun h => ?_⟩
  have hbit := congrArg (BitVec.getLsbD · 0) h
  simp at hbit

/-- Settles O40: the two addresses conflict. -/
theorem conflictingReadRefreshesALine : Obligations.ConflictingReadRefreshesALine := by
  unfold Obligations.ConflictingReadRefreshesALine
  intro s c a
  obtain ⟨hidx, htag⟩ := conflict_flip_bit12 a
  exact ⟨_, exec_readOf s c _, readsAs_after_conflict s c hidx htag⟩

/-- Settles O42: the write reached no store, and the conflicting read drops the line. -/
theorem evictionDiscardsACacheOnlyWrite : Obligations.EvictionDiscardsACacheOnlyWrite := by
  unfold Obligations.EvictionDiscardsACacheOnlyWrite
  intro s c a b v h hidx htag
  obtain ⟨hstores, -⟩ := cacheWrite_stores_of_cacheOnly c a v h
  obtain ⟨-, -, hrom, -⟩ := cacheWrite_control s c a v
  obtain ⟨hstores', -, -, hrom', -⟩ := State.cacheRead_frame (s.cacheWrite c a v) c b
  refine ⟨_, _, exec_writeOf s c a v, exec_readOf _ c b,
    ⟨hstores'.1.trans hstores.1, hstores'.2.trans hstores.2⟩, hrom'.trans hrom, ?_⟩
  rw [← wordOf_cacheWrite_of_cacheOnly h]
  exact readsAs_after_conflict _ c hidx htag

end Sys2Proof.Machine

/-! ## What an instruction can do to the caches and the stores

One case analysis of `exec` per part of the state; the statements about runs follow from these. -/

namespace Sys2Proof.Machine

open Vocabulary

/-! ### The stores -/

/-- The address whose word a request may write in the backing store: WR*, and the router half of a cache write. -/
def storeTarget : Instr → Option Word
  | .wr8 a _ => some a
  | .wr16 a _ => some a
  | .wr32 a _ => some a
  | .cwrd a _ => some a
  | .cwri a _ => some a
  | _ => none

/-- An image that LOADIMG accepts in a state (44_host_control.md R150). -/
def acceptsImage (s : State) (i : Instr) (b : List Byte) : Prop :=
  i = .loadimg (some b) ∧ s.romLoaded = false ∧ b.length = Config.romSize

theorem imageLoadFails_eq_false {s : State} {image : Image} (h : imageLoadFails image s = false) :
    ∃ b, image = some b ∧ s.romLoaded = false ∧ b.length = Config.romSize := by
  cases image with
  | none => simp [imageLoadFails] at h
  | some b => exact ⟨b, rfl, by simpa [imageLoadFails] using h⟩

theorem routerWrite_stores (s : State) (pa : Word) (n : Byte) (compose : Word → Word) :
    (s.routerWrite pa n compose).ram = (s.memWrite pa (compose (s.memRead pa))).ram ∧
      (s.routerWrite pa n compose).spad = (s.memWrite pa (compose (s.memRead pa))).spad := by
  rw [State.routerWrite_eq]
  exact ⟨rfl, rfl⟩

section
variable {s t : State} {i : Instr}

/-- An instruction leaves ROM and `rom_loaded` as they are, or is the LOADIMG of an image that fits. -/
theorem exec_rom_cases (h : exec i s = .next t) :
    (t.rom = s.rom ∧ t.romLoaded = s.romLoaded) ∨
      ∃ b, acceptsImage s i b ∧ t = (s.loadRom b).respond {} := by
  cases i with
  | rd8 | rd16 | rd32 =>
    cases h
    exact .inl (by rw [State.routerRead_eq]; exact ⟨rfl, rfl⟩)
  | wr8 a v | wr16 a v | wr32 a v =>
    cases h
    obtain ⟨-, -, -, -, -, hrom, -, hloaded, -⟩ := routerWrite_frame s a _ _
    exact .inl ⟨hrom, hloaded⟩
  | crdd a | crdi a =>
    cases h
    obtain ⟨-, -, -, hrom, -, hloaded, -⟩ := State.cacheRead_frame s _ a
    exact .inl ⟨hrom, hloaded⟩
  | cwrd a v | cwri a v =>
    cases h
    obtain ⟨-, -, hrom, -, hloaded, -⟩ := cacheWrite_control s _ a v
    exact .inl ⟨hrom, hloaded⟩
  | xlate va =>
    cases (execXlate_eq s va).symm.trans h
    exact .inl ⟨rfl, rfl⟩
  | loadimg image =>
    cases (execLoadimg_eq s image).symm.trans h
    cases hf : imageLoadFails image s
    · obtain ⟨b, rfl, hloaded, hlen⟩ := imageLoadFails_eq_false hf
      exact .inr ⟨b, ⟨rfl, hloaded, hlen⟩, rfl⟩
    · exact .inl ⟨rfl, rfl⟩
  | logen ok =>
    cases ok <;> cases h <;> exact .inl ⟨rfl, rfl⟩
  | logdis =>
    cases h
    exact .inl ⟨rfl, rfl⟩
  | dump start len =>
    cases (execDump_eq s start len).symm.trans h
    exact .inl ⟨rfl, rfl⟩

/-- An instruction leaves RAM and scratchpad as they are, or writes one word at its address (20_memory.md R49). -/
theorem exec_stores_cases (h : exec i s = .next t) :
    sameStores s t ∨
      ∃ a v, storeTarget i = some a ∧ t.ram = (s.memWrite a v).ram ∧ t.spad = (s.memWrite a v).spad := by
  cases i with
  | rd8 | rd16 | rd32 =>
    cases h
    exact .inl (by rw [State.routerRead_eq]; exact ⟨rfl, rfl⟩)
  | wr8 a | wr16 a | wr32 a =>
    cases h
    exact .inr ⟨a, _, rfl, (State.respond_ram ..).trans (routerWrite_stores s a _ _).1,
      (State.respond_spad ..).trans (routerWrite_stores s a _ _).2⟩
  | crdd a | crdi a =>
    cases h
    exact .inl (State.cacheRead_frame s _ a).1
  | cwrd a v | cwri a v =>
    cases h
    cases hp : s.params.writePolicy
    · exact .inl (cacheWrite_stores_of_cacheOnly _ a v hp).1
    · obtain ⟨hram, hspad, -⟩ := cacheWrite_stores_of_writeThrough _ a v hp
      obtain ⟨hram', hspad'⟩ := routerWrite_stores s a 4 fun _ => v
      exact .inr ⟨a, v, rfl, hram.trans hram', hspad.trans hspad'⟩
  | xlate va =>
    cases (execXlate_eq s va).symm.trans h
    exact .inl ⟨rfl, rfl⟩
  | loadimg image =>
    cases (execLoadimg_eq s image).symm.trans h
    cases imageLoadFails image s <;> exact .inl ⟨rfl, rfl⟩
  | logen ok => cases ok <;> cases h <;> exact .inl ⟨rfl, rfl⟩
  | logdis =>
    cases h
    exact .inl ⟨rfl, rfl⟩
  | dump start len =>
    cases (execDump_eq s start len).symm.trans h
    exact .inl ⟨rfl, rfl⟩

/-- A word that is neither in ROM being loaded nor the one written reads as before. -/
theorem exec_keeps_wordOf (h : exec i s = .next t) (himage : ∀ b, i ≠ .loadimg (some b)) {b : Word}
    (hb : ∀ a, storeTarget i = some a → wordAddr b ≠ wordAddr a) : wordOf t b = wordOf s b := by
  have hrom : t.rom = s.rom := by
    rcases exec_rom_cases h with ⟨hrom, -⟩ | ⟨b, ⟨hi, -⟩, -⟩
    · exact hrom
    · exact absurd hi (himage b)
  rcases exec_stores_cases h with hstores | ⟨a, v, ha, hram, hspad⟩
  · exact wordOf_congr hstores hrom b
  · have hromWrite : t.rom = (s.memWrite a v).rom := by rw [hrom, State.memWrite_eq]
    rw [wordOf_eq_memRead, wordOf_eq_memRead, State.memRead_congr hram hromWrite hspad, State.memRead_memWrite,
      if_neg (fun hc => hb a ha hc.2)]

/-! ### The caches -/

/-- A request that is neither the read nor the write of an instance leaves it alone (10_state.md R26). -/
theorem exec_keeps_cache {c : CacheSel} (hr : ∀ pa, i ≠ readOf c pa) (hw : ∀ pa v, i ≠ writeOf c pa v)
    (h : exec i s = .next t) : t.cache c = s.cache c := by
  obtain ⟨u, hu, hcache, -⟩ := exec_ignores_other_cache s hr hw
  cases hu.symm.trans h
  exact hcache

/-- A line is as before, was filled by a read that missed, or was written. -/
theorem exec_line_cases (h : exec i s = .next t) (c : CacheSel) (j : BitVec 7) :
    (t.cache c).line j = (s.cache c).line j ∨
      (∃ a, i = readOf c a ∧ resident s c a = false ∧ j = idxBits a ∧ (t.cache c).line j = s.filledLine a) ∨
      ∃ a v, i = writeOf c a v ∧ j = idxBits a ∧ (t.cache c).line j = s.writtenLine c a v := by
  by_cases hr : ∃ a, i = readOf c a
  · obtain ⟨a, rfl⟩ := hr
    cases (exec_readOf s c a).symm.trans h
    have hline := State.line_cacheRead s c a c j
    split at hline
    · next hfill => exact .inr (.inl ⟨a, rfl, hfill.1, hfill.2.2, hline⟩)
    · exact .inl hline
  · by_cases hw : ∃ a v, i = writeOf c a v
    · obtain ⟨a, v, rfl⟩ := hw
      cases (exec_writeOf s c a v).symm.trans h
      have hline := State.line_cacheWrite s c a v c j
      split at hline
      · next hwrite => exact .inr (.inr ⟨a, v, rfl, hwrite.2, hline⟩)
      · exact .inl hline
    · have hkeep := exec_keeps_cache (c := c) (fun a ha => hr ⟨a, ha⟩) (fun a v ha => hw ⟨a, v, ha⟩) h
      exact .inl (congrArg (Cache.line · j) hkeep)

theorem exec_keeps_valid (h : exec i s = .next t) {c : CacheSel} {j : BitVec 7}
    (hv : ((s.cache c).line j).valid = true) : ((t.cache c).line j).valid = true := by
  rcases exec_line_cases h c j with hline | ⟨a, -, -, -, hline⟩ | ⟨a, v, -, -, hline⟩
  · rw [hline, hv]
  · rw [hline]
    rfl
  · rw [hline]
    rfl

end

/-- A read of a resident block answers the same in every state that holds the same cache. -/
theorem readsAs_of_same_cache {s t : State} {c : CacheSel} {pb : Word} (hres : resident s c pb = true)
    (h : t.cache c = s.cache c) : readsAs (readOf c pb) t ((lineAt s c pb).word (slotBits pb)) := by
  have hline : lineAt t c pb = lineAt s c pb := by rw [lineAt, lineAt, h]
  rw [← hline]
  exact readsAs_of_resident ((resident_congr hline).trans hres)

/-- Settles O37: no WR* is the read or the write of an instance. -/
theorem routerWriteDoesNotReachAResidentLine : Obligations.RouterWriteDoesNotReachAResidentLine := by
  unfold Obligations.RouterWriteDoesNotReachAResidentLine
  intro s c pa v pb i hres hi
  obtain ⟨t, ht, -⟩ := exec_completes s i
  refine ⟨t, ht, readsAs_of_same_cache hres (exec_keeps_cache (fun a => ?_) (fun a w => ?_) ht)⟩ <;>
    rcases hi with rfl | rfl | rfl <;> cases c <;> exact Instr.noConfusion

/-- Settles O45: an instruction leaves each line as it was or valid, and no other effect of a step is on a cache. -/
theorem validBitsAreNeverCleared : Obligations.ValidBitsAreNeverCleared := by
  unfold Obligations.ValidBitsAreNeverCleared
  intro s t c j h hv
  rcases step_effect_cases h with ⟨inputs, responses, rfl⟩ | ⟨i, u, rest, inputs, hu, rfl⟩ | ⟨vpn, e, rest, rfl⟩
  · cases c <;> exact hv
  · have hvu : ((u.cache c).line j).valid = true := exec_keeps_valid hu (by cases c <;> exact hv)
    cases c <;> exact hvu
  · cases c <;> exact hv

/-! ### Coherence (43_cache.md R143) -/

section
variable {s t : State} {c : CacheSel} {pa : Word} {i : Instr}

/-- Coherence in the vocabulary of the obligations. -/
theorem lineCoherent_iff :
    s.lineCoherent c pa ↔ resident s c pa = true ∧
      ∀ k : BitVec 3, (lineAt s c pa).word k = wordOf s (blockAddr pa + 4 * k.setWidth 32) := by
  simp only [wordOf_eq_memRead]
  rfl

/-- The words of a block lie in it. -/
theorem sameBlock_blockAddr_add (pa : Word) (k : BitVec 3) : sameBlock (blockAddr pa + 4 * k.setWidth 32) pa := by
  have hk := k.isLt
  have hpa := pa.isLt
  have hbase : (blockAddr pa).toNat = pa.toNat / 32 * 32 := lineBase_toNat pa
  have h4 : (4 : Word).toNat = 4 := rfl
  unfold sameBlock
  rw [BitVec.toNat_add, BitVec.toNat_mul, BitVec.toNat_setWidth, hbase, h4]
  omega

theorem sameBlock_of_storeTarget {a : Word} (ha : storeTarget i = some a) (hblock : sameBlock a pa) :
    disturbs c pa i := by
  cases i <;> simp only [storeTarget, reduceCtorEq, Option.some.injEq] at ha <;> subst ha
  case wr8 | wr16 | wr32 => exact hblock
  case cwrd | cwri => exact .inr hblock

/-- A request that does not disturb a resident line leaves it as it was. -/
theorem lineAt_of_not_disturbs (h : exec i s = .next t) (hres : resident s c pa = true) (hi : ¬ disturbs c pa i) :
    lineAt t c pa = lineAt s c pa := by
  rcases exec_line_cases h c (idxBits pa) with hline | ⟨a, rfl, hmiss, hidx, -⟩ | ⟨a, v, rfl, hidx, -⟩
  · exact hline
  · have htag : tagBits a = tagBits pa := by
      by_contra htag
      exact hi (by cases c <;> exact ⟨rfl, hidx.symm, htag⟩)
    have hblock : sameBlock a pa := same_block_iff.mpr ⟨hidx.symm, htag⟩
    rw [resident_eq_of_block hblock, hres] at hmiss
    exact absurd hmiss (by decide)
  · exact absurd (show disturbs c pa (writeOf c a v) by cases c <;> exact .inl ⟨rfl, hidx.symm⟩) hi

/-- A request that does not disturb a line leaves the words of its block in the backing store as they were. -/
theorem wordOf_of_not_disturbs (h : exec i s = .next t) (hi : ¬ disturbs c pa i) {b : Word} (hb : sameBlock b pa) :
    wordOf t b = wordOf s b := by
  refine exec_keeps_wordOf h (by rintro img rfl; exact hi trivial) fun a ha hword => hi ?_
  have hab := wordAddr_eq_iff.mp hword
  refine sameBlock_of_storeTarget ha ?_
  unfold sameBlock at hb ⊢
  omega

theorem lineCoherent_of_not_disturbs (h : exec i s = .next t) (hcoh : s.lineCoherent c pa) (hi : ¬ disturbs c pa i) :
    t.lineCoherent c pa := by
  obtain ⟨hres, hwords⟩ := lineCoherent_iff.mp hcoh
  have hline := lineAt_of_not_disturbs h hres hi
  refine lineCoherent_iff.mpr ⟨(resident_congr hline).trans hres, fun k => ?_⟩
  rw [hline, hwords, wordOf_of_not_disturbs h hi (sameBlock_blockAddr_add pa k)]

/-- A read of a coherent line answers the backing store's word. -/
theorem readsAs_of_lineCoherent (hcoh : s.lineCoherent c pa) {pb : Word} (hb : sameBlock pa pb) :
    readsAs (readOf c pb) s (wordOf s pb) := by
  obtain ⟨hres, hwords⟩ := lineCoherent_iff.mp hcoh
  have hread := readsAs_of_resident ((resident_eq_of_block hb).symm.trans hres)
  have hbase : blockAddr pa = blockAddr pb := lineBase_eq_of_block hb
  have hword : alignWord pb = blockAddr pb + 4 * (slotBits pb).setWidth 32 := alignWord_eq_lineBase_add pb
  rwa [← lineAt_eq_of_idx (idxBits_eq_of_block hb), hwords, hbase, ← hword, wordOf_eq_memRead,
    State.memRead_alignWord, ← wordOf_eq_memRead] at hread

end

/-- Settles O41: a request that disturbs neither the line nor its block's words keeps both, and a read of it hits. -/
theorem coherentLineStaysCoherent : Obligations.CoherentLineStaysCoherent := by
  unfold Obligations.CoherentLineStaysCoherent
  intro s c pa i hcoh hi
  obtain ⟨t, ht, -⟩ := exec_completes s i
  have hcoh' := lineCoherent_of_not_disturbs ht hcoh hi
  exact ⟨t, ht, hcoh', fun pb => readsAs_of_lineCoherent hcoh'⟩

end Sys2Proof.Machine

/-! ## Loading an image (44_host_control.md §1)

LOADIMG by the two answers of `execLoadimg_eq`, and ROM as the image it holds afterwards. -/

namespace Sys2Proof.Machine

open Vocabulary

section
variable {s : State} {b : List Byte}

/-- LOADIMG of an image of the right size, with none loaded (44_host_control.md R150). -/
theorem exec_loadimg_of_size (hloaded : s.romLoaded = false) (hlen : b.length = Config.romSize) :
    exec (.loadimg (some b)) s = .next ((s.loadRom b).respond {}) := by
  have hf : imageLoadFails (some b) s = false := by simp [imageLoadFails, hloaded, hlen]
  exact (execLoadimg_eq s (some b)).trans (by rw [hf]; rfl)

/-- ROM word `j` after a load is `Pack(b, 4*j)` (44_host_control.md R151). -/
theorem State.romWord_loadRom (s : State) (b : List Byte) (j : Nat) :
    (s.loadRom b).romWord j =
      (b.getD (4 * j + 3) 0 ++ b.getD (4 * j + 2) 0 ++ b.getD (4 * j + 1) 0 ++ b.getD (4 * j) 0 :
        BitVec (8 + 8 + 8 + 8)) := by
  rw [State.romWord, State.loadRom_rom, Memory.readWord, pack4_eq_append]
  simp only [Nat.add_assoc, Memory.read_ofBytes]

/-- The bytes of the address space after a load: the image in ROM, and elsewhere what was there. -/
theorem State.byteAt_loadRom (s : State) (b : List Byte) (pa : Word) :
    (s.loadRom b).byteAt pa = if inRom pa = true then b.getD (pa.toNat - 0xBFC00000) 0 else s.byteAt pa := by
  have hrom := region_eq_rom_iff_inRom pa
  unfold State.byteAt
  cases hr : region pa
  case rom =>
    have hbounds := region_eq_rom.mp hr
    have hbase : pa.toNat = Config.romBase + (pa.toNat - 0xBFC00000) := by
      rw [Config.romBase]
      omega
    rw [if_pos (hrom.mp hr)]
    exact (congrArg _ hbase).trans (Memory.read_ofBytes Config.romBase b _)
  all_goals
    exact (if_neg fun h => by rw [hrom.mpr h] at hr; cases hr).symm

end

/-- Settles O46: the next state is the one with the image as ROM, whose words and bytes are the image's. -/
theorem loadimgReplacesTheWholeRom : Obligations.LoadimgReplacesTheWholeRom := by
  unfold Obligations.LoadimgReplacesTheWholeRom
  intro s b hloaded hlen
  exact ⟨_, exec_loadimg_of_size hloaded hlen, fun j _ => State.romWord_loadRom s b j, State.byteAt_loadRom s b, rfl,
    rfl, ⟨rfl, rfl⟩, ⟨rfl, rfl⟩, rfl⟩

/-- Settles O47: each of the three causes makes the load fail. -/
theorem failedLoadimgChangesNothing : Obligations.FailedLoadimgChangesNothing := by
  unfold Obligations.FailedLoadimgChangesNothing
  intro s image hcause
  have hf : imageLoadFails image s = true := by
    rcases hcause with h | rfl | ⟨b, rfl, hlen⟩
    · simp [imageLoadFails, h]
    · simp [imageLoadFails]
    · have hsize : b.length ≠ Config.romSize := hlen
      simp [imageLoadFails, hsize]
  exact (execLoadimg_eq s image).trans (by rw [hf]; rfl)

/-- Settles O43: LOADIMG is neither the read nor the write of an instance. -/
theorem loadimgLeavesResidentLinesStale : Obligations.LoadimgLeavesResidentLinesStale := by
  unfold Obligations.LoadimgLeavesResidentLinesStale
  intro s c pb b hres hloaded hlen
  exact ⟨_, exec_loadimg_of_size hloaded hlen, rfl, readsAs_of_same_cache hres (by cases c <;> rfl)⟩

/-- A step leaves ROM and `rom_loaded` as they are, or takes the LOADIMG request of an image that fits. -/
theorem step_rom_cases {s t : State} (h : step s = .next t) :
    (t.rom = s.rom ∧ t.romLoaded = s.romLoaded) ∨
      ∃ r b rest, s.inputs = .request r :: rest ∧ decode r = .ok (.loadimg (some b)) ∧ s.romLoaded = false ∧
        b.length = Config.romSize ∧ t.romLoaded = true := by
  rcases step_cases s with ⟨-, hs⟩ | ⟨r, rest, i, hin, hd, hs⟩ | ⟨r, rest, e, -, -, hs⟩ | ⟨p, rest, u, -, hu, hs⟩ |
    ⟨vpn, e, rest, -, hs⟩
  · cases hs.symm.trans h
    exact .inl ⟨rfl, rfl⟩
  · rcases exec_rom_cases (hs.symm.trans h) with hsame | ⟨b, ⟨rfl, hloaded, hlen⟩, rfl⟩
    · exact .inl hsame
    · exact .inr ⟨r, b, rest, hin, hd, hloaded, hlen, rfl⟩
  · cases hs.symm.trans h
    exact .inl ⟨rfl, rfl⟩
  · cases hs.symm.trans h
    cases (execXlate_eq _ p.guest).symm.trans hu
    exact .inl ⟨rfl, rfl⟩
  · cases hs.symm.trans h
    exact .inl ⟨rfl, rfl⟩

/-- Settles O48: by the two cases of a step for ROM. -/
theorem romChangesOnlyByTheOneLoad : Obligations.RomChangesOnlyByTheOneLoad := by
  unfold Obligations.RomChangesOnlyByTheOneLoad
  intro s t h
  rcases step_rom_cases h with ⟨hrom, hloaded⟩ | ⟨r, b, rest, hin, hd, hnone, hlen, hloaded⟩
  · exact ⟨fun hs => ⟨hloaded.trans hs, hrom⟩, fun hne => (hne.elim (· hrom) (· hloaded)).elim⟩
  · exact ⟨fun hs => absurd (hnone.symm.trans hs) (by decide), fun _ => ⟨hnone, hloaded, r, b, rest, hin, hd, hlen⟩⟩

/-- LOGEN without a usable sink (44_host_control.md R153), through the state's operations. -/
theorem exec_logen_false (s : State) :
    exec (.logen false) s = .next ((s.setLogEnabled false).respond { status := .logSinkError }) := rfl

/-- Settles O49: each answer of LOGEN is the write of `log_enabled` and one response. -/
theorem logenSetsLogEnabled : Obligations.LogenSetsLogEnabled := by
  unfold Obligations.LogenSetsLogEnabled
  exact fun s => ⟨exec_logen_true s, exec_logen_false s⟩

end Sys2Proof.Machine

/-! ## DUMP (44_host_control.md §3) -/

namespace Sys2Proof.Machine

open Vocabulary

section
variable (s : State) (rs : List LogRecord)

theorem recorded_eq_append : recorded s rs = s.log ++ if s.logEnabled then rs else [] := by
  unfold recorded
  cases s.logEnabled <;> simp

@[simp] theorem recorded_nil : recorded s [] = s.log := by
  rw [recorded_eq_append, ite_self, List.append_nil]

variable (start len : Word)

/-- The words of a dump rise (44_host_control.md R155). -/
theorem dumpWords_pairwise : (dumpWords start len).Pairwise fun v w => v.toNat < w.toNat := by
  have hstart := start.isLt
  unfold dumpWords
  rw [List.pairwise_map]
  refine List.pairwise_lt_range.imp_of_mem fun {i j} hi hj hij => ?_
  rw [List.mem_range, dumpCount, alignWord_toNat] at hi hj
  rw [alignWord_toNat, BitVec.toNat_ofNat, BitVec.toNat_ofNat]
  omega

/-- The entries of a DUMP. -/
def dumpEntries : List (Word × Word) := (dumpWords start len).map fun w => (w, wordOf s w)

theorem decide_region_eq_outOfRange (w : Word) : decide (region w = .outOfRange) = outside w := by
  rw [Bool.eq_iff_iff, decide_eq_true_iff, region_eq_outOfRange_iff_outside]

/-- DUMP in the vocabulary of the obligations: its records and its entries. -/
theorem execDump_eq_recorded :
    execDump start len s = .next { s with
      log := recorded s (recordsOf (.dump start len) s)
      responses := s.responses ++ [{ dump := dumpEntries s start len }] } := by
  rw [execDump_eq]
  simp only [recorded_eq_append, recordsOf, dumpEntries, wordOf_eq_memRead, decide_region_eq_outOfRange]
  cases s.params.dumpLogs <;> cases s.logEnabled <;> rfl

theorem records_of_dumpEntries :
    ((dumpEntries s start len).filter fun e => outside e.1).map
        (fun e => ({ op := .read, addr := e.1, size := 4 } : LogRecord)) =
      ((dumpWords start len).filter fun w => outside w).map fun w => { op := .read, addr := w, size := 4 } := by
  rw [dumpEntries, List.filter_map, List.map_map]
  rfl

theorem mem_dumpEntries {w x : Word} : (w, x) ∈ dumpEntries s start len ↔ w ∈ dumpWords start len ∧ x = wordOf s w := by
  simp only [dumpEntries, List.mem_map, Prod.mk.injEq]
  constructor
  · rintro ⟨v, hv, rfl, rfl⟩
    exact ⟨hv, rfl⟩
  · rintro ⟨hw, rfl⟩
    exact ⟨w, hw, rfl, rfl⟩

end

/-- Settles O53: the entries are the words of the range, each with its word of the backing store. -/
theorem dumpListsTheWordsOfTheRange : Obligations.DumpListsTheWordsOfTheRange := by
  unfold Obligations.DumpListsTheWordsOfTheRange
  intro s start len
  refine ⟨dumpEntries s start len, ?_, ?_, ?_, fun w x => ?_⟩
  · rw [records_of_dumpEntries]
    exact execDump_eq_recorded s start len
  · exact List.pairwise_map.mpr (dumpWords_pairwise start len)
  · rw [dumpEntries, List.map_map]
    exact List.map_id' _
  · rw [mem_dumpEntries, mem_dumpWords, and_assoc, and_assoc,
      show start.toNat / 4 * 4 = start.toNat - start.toNat % 4 by omega]

end Sys2Proof.Machine

/-! ## Records and conditions (60_exceptions.md §2 to §4)

What each instruction appends and answers, against the conditions it meets. -/

namespace Sys2Proof.Machine

open Vocabulary

section
variable (s : State)

theorem recordsOf_xlate (va : Word) :
    recordsOf (.xlate va) s =
      if PageMap.maps s.pageMap va then [] else [{ op := .translationMiss, addr := va, size := 0 }] := by
  unfold recordsOf PageMap.maps vpnOf
  dsimp only
  cases PageMap.entry s.pageMap (va.extractLsb' 12 20) <;> rfl

theorem State.routerWrite_log (pa : Word) (n : Byte) (compose : Word → Word) :
    (s.routerWrite pa n compose).log = recorded s (ifOutside .write pa n) :=
  (routerWrite_frame s pa n compose).1

theorem State.cacheWrite_log (c : CacheSel) (pa v : Word) :
    (s.cacheWrite c pa v).log =
      recorded s (if s.params.writePolicy = .writeThrough then ifOutside .write pa 4 else []) := by
  cases hp : s.params.writePolicy
  · rw [(cacheWrite_stores_of_cacheOnly c pa v hp).2]
    exact (recorded_nil s).symm
  · obtain ⟨-, -, -, hlog⟩ := cacheWrite_stores_of_writeThrough c pa v hp
    rw [hlog, State.routerWrite_log, if_pos rfl]

variable {s} {t : State}

/-- The records of an instruction, when logging is on (60_exceptions.md R177, R178). -/
theorem exec_log {i : Instr} (h : exec i s = .next t) : t.log = recorded s (recordsOf i s) := by
  cases i with
  | rd8 a | rd16 a | rd32 a =>
    cases h
    rw [State.routerRead_eq_recorded]
    rfl
  | wr8 a v | wr16 a v | wr32 a v =>
    cases h
    exact (State.respond_log ..).trans (State.routerWrite_log s a _ _)
  | xlate va =>
    cases (execXlate_eq s va).symm.trans h
    rw [recorded_eq_append, recordsOf_xlate]
    cases PageMap.maps s.pageMap va <;> cases s.logEnabled <;> rfl
  | crdd a | crdi a =>
    cases h
    exact State.cacheRead_log s _ a
  | cwrd a v | cwri a v =>
    cases h
    exact State.cacheWrite_log s _ a v
  | loadimg image =>
    cases (execLoadimg_eq s image).symm.trans h
    refine Eq.trans ?_ (recorded_nil s).symm
    cases imageLoadFails image s <;> rfl
  | logen ok => cases ok <;> cases h <;> exact (recorded_nil s).symm
  | logdis =>
    cases h
    exact (recorded_nil s).symm
  | dump start len =>
    cases (execDump_eq_recorded s start len).symm.trans h
    rfl

end

/-- Settles O54: by the records of each instruction. -/
theorem recordsOfEveryRequest : Obligations.RecordsOfEveryRequest := by
  unfold Obligations.RecordsOfEveryRequest
  intro i s
  obtain ⟨t, ht, -⟩ := exec_completes s i
  exact ⟨t, ht, exec_log ht⟩

/-! ### The three kinds of instruction in the log -/

/-- The records of out-of-range accesses, one each. -/
def accessRecords (op : LogOp) (n : Byte) (accesses : List Word) : List LogRecord :=
  (accesses.filter fun a => outside a).map fun a => { op := op, addr := a, size := n }

theorem ifOutside_eq_accessRecords (op : LogOp) (pa : Word) (n : Byte) :
    ifOutside op pa n = accessRecords op n [pa] := by
  unfold ifOutside accessRecords
  cases h : outside pa <;> simp [h]

theorem fillRecords_eq_accessRecords (pa : Word) : fillRecords pa = accessRecords .read 4 (lineWords pa) := by
  have hfilter := filter_lineWords pa
  simp only [region_eq_outOfRange_iff_outside, Bool.decide_eq_true] at hfilter
  rw [fillRecords_eq, accessRecords, hfilter]
  split <;> rfl

/-- An instruction whose records and conditions are those of its reported accesses out of range, with the operation and
the size of the access in each record (60_exceptions.md R177). -/
structure ReportsAccesses (i : Instr) (s : State) (op : LogOp) (n : Byte) : Prop where
  op_ne : op ≠ .translationMiss
  size : n = 1 ∨ n = 2 ∨ n = 4
  records : recordsOf i s = accessRecords op n (reportedAccesses i s)
  conditions : conditionsOf i s = outOfRangeOnes (reportedAccesses i s)

/-- An instruction reports its accesses, is an XLATE, or appends nothing. -/
theorem recordsOf_cases (i : Instr) (s : State) :
    (∃ op n, ReportsAccesses i s op n) ∨ (∃ va, i = .xlate va) ∨
      (recordsOf i s = [] ∧ ∀ c ∈ conditionsOf i s, c = .imageLoadError ∨ c = .logSinkError) := by
  cases i with
  | rd8 a => exact .inl ⟨.read, 1, by decide, by decide, ifOutside_eq_accessRecords .read a 1, rfl⟩
  | rd16 a => exact .inl ⟨.read, 2, by decide, by decide, ifOutside_eq_accessRecords .read a 2, rfl⟩
  | rd32 a => exact .inl ⟨.read, 4, by decide, by decide, ifOutside_eq_accessRecords .read a 4, rfl⟩
  | wr8 a => exact .inl ⟨.write, 1, by decide, by decide, ifOutside_eq_accessRecords .write a 1, rfl⟩
  | wr16 a => exact .inl ⟨.write, 2, by decide, by decide, ifOutside_eq_accessRecords .write a 2, rfl⟩
  | wr32 a => exact .inl ⟨.write, 4, by decide, by decide, ifOutside_eq_accessRecords .write a 4, rfl⟩
  | xlate va => exact .inr (.inl ⟨va, rfl⟩)
  | crdd a | crdi a =>
    refine .inl ⟨.read, 4, by decide, by decide, ?_, rfl⟩
    rw [recordsOf, reportedAccesses, fillRecords_eq_accessRecords, apply_ite (accessRecords .read 4)]
    rfl
  | cwrd a | cwri a =>
    refine .inl ⟨.write, 4, by decide, by decide, ?_, rfl⟩
    rw [recordsOf, reportedAccesses, ifOutside_eq_accessRecords, apply_ite (accessRecords .write 4)]
    rfl
  | loadimg image =>
    refine .inr (.inr ⟨rfl, fun c hc => .inl ?_⟩)
    cases h : imageLoadFails image s <;> simp [conditionsOf, h] at hc
    exact hc
  | logen ok =>
    refine .inr (.inr ⟨rfl, fun c hc => .inr ?_⟩)
    cases ok <;> simp [conditionsOf] at hc
    exact hc
  | logdis => exact .inr (.inr ⟨rfl, by simp [conditionsOf]⟩)
  | dump start len =>
    refine .inl ⟨.read, 4, by decide, by decide, ?_, rfl⟩
    rw [recordsOf, reportedAccesses, apply_ite (accessRecords .read 4)]
    rfl

theorem LogRecord.wellFormed_of_access {op : LogOp} {n : Byte} (hop : op ≠ .translationMiss)
    (hn : n = 1 ∨ n = 2 ∨ n = 4) (a : Word) : LogRecord.wellFormed { op := op, addr := a, size := n } = true := by
  cases op with
  | read | write => rcases hn with rfl | rfl | rfl <;> rfl
  | translationMiss => exact absurd rfl hop

/-- Every record an instruction appends has a size its operation admits (30_encoding.md R84). -/
theorem recordsOf_wellFormed {i : Instr} {s : State} {r : LogRecord} (h : r ∈ recordsOf i s) :
    LogRecord.wellFormed r = true := by
  rcases recordsOf_cases i s with ⟨op, n, hop, hn, hrecs, -⟩ | ⟨va, rfl⟩ | ⟨hrecs, -⟩
  · rw [hrecs] at h
    obtain ⟨a, -, rfl⟩ := List.mem_map.mp h
    exact LogRecord.wellFormed_of_access hop hn a
  · rw [recordsOf_xlate] at h
    split at h
    · exact absurd h List.not_mem_nil
    · rw [List.mem_singleton.mp h]
      rfl
  · rw [hrecs] at h
    exact absurd h List.not_mem_nil

end Sys2Proof.Machine

/-! ### Conditions and what reports them -/

namespace Sys2Proof.Machine

open Vocabulary

theorem mem_accessRecords {op : LogOp} {n : Byte} {l : List Word} {r : LogRecord} (h : r ∈ accessRecords op n l) :
    r.op = op := by
  obtain ⟨a, -, rfl⟩ := List.mem_map.mp h
  rfl

theorem accessRecords_length (op : LogOp) (n : Byte) (l : List Word) :
    (accessRecords op n l).length = (outOfRangeOnes l).length := by
  rw [accessRecords, outOfRangeOnes, List.length_map, List.length_map]
  simp only [region_alignWord, decide_region_eq_outOfRange]

theorem mem_outOfRangeOnes {l : List Word} {c : Condition} (h : c ∈ outOfRangeOnes l) : c = .outOfRange := by
  obtain ⟨a, -, rfl⟩ := List.mem_map.mp h
  rfl

section
variable (i : Instr) (s : State)

/-- One access record for each `OutOfRange`, one miss record for each `TranslationMiss` (60_exceptions.md R171). -/
theorem countP_recordsOf :
    (recordsOf i s).countP (fun x => x.op ≠ .translationMiss) = (conditionsOf i s).count .outOfRange ∧
      (recordsOf i s).countP (fun x => x.op = .translationMiss) = (conditionsOf i s).count .translationMiss := by
  rcases recordsOf_cases i s with ⟨op, n, hop, -, hrecs, hconds⟩ | ⟨va, rfl⟩ | ⟨hrecs, hconds⟩
  · rw [hrecs, hconds]
    constructor
    · rw [List.countP_eq_length.mpr fun r hr => by simp [mem_accessRecords hr, hop], accessRecords_length]
      exact (List.count_eq_length.mpr fun c hc => (mem_outOfRangeOnes hc).symm).symm
    · rw [List.countP_eq_zero.mpr fun r hr => by simp [mem_accessRecords hr, hop]]
      exact (List.count_eq_zero.mpr fun hc => Condition.noConfusion (mem_outOfRangeOnes hc)).symm
  · rw [recordsOf_xlate, conditionsOf]
    cases PageMap.maps s.pageMap va <;> exact ⟨rfl, rfl⟩
  · rw [hrecs, List.countP_nil, List.countP_nil]
    constructor <;>
      exact (List.count_eq_zero.mpr fun hc => by rcases hconds _ hc with h | h <;> exact Condition.noConfusion h).symm

/-- The status an instruction answers (60_exceptions.md R171, R172). -/
def statusOf : Instr → State → Status
  | .loadimg image, s => if imageLoadFails image s then .imageLoadError else .ok
  | .logen sinkOk, _ => if sinkOk then .ok else .logSinkError
  | _, _ => .ok

variable {i s} {t : State}

theorem State.cacheRead_status (s : State) (c : CacheSel) (pa : Word) :
    ∃ resp, (s.cacheRead c pa).responses = s.responses ++ [resp] ∧ resp.status = .ok := by
  cases h : resident s c pa
  · exact ⟨_, State.cacheRead_responses_of_not_resident h, rfl⟩
  · exact ⟨_, congrArg State.responses (State.cacheRead_hit s h), rfl⟩

theorem exec_status (h : exec i s = .next t) :
    ∃ resp, t.responses = s.responses ++ [resp] ∧ resp.status = statusOf i s := by
  cases i with
  | rd8 a | rd16 a | rd32 a =>
    cases h
    rw [State.routerRead_eq_recorded]
    exact ⟨_, rfl, rfl⟩
  | wr8 a v | wr16 a v | wr32 a v =>
    cases h
    obtain ⟨-, hvoid, -⟩ := routerWrite_frame s a _ _
    exact ⟨_, hvoid, rfl⟩
  | crdd a | crdi a =>
    cases h
    exact State.cacheRead_status s _ a
  | cwrd a v | cwri a v =>
    cases h
    exact ⟨_, cacheWrite_answersVoid s _ a v, rfl⟩
  | xlate va =>
    cases (execXlate_eq s va).symm.trans h
    exact ⟨_, rfl, rfl⟩
  | loadimg image =>
    cases (execLoadimg_eq s image).symm.trans h
    rw [statusOf]
    cases imageLoadFails image s <;> exact ⟨_, rfl, rfl⟩
  | logen sinkOk => cases sinkOk <;> cases h <;> exact ⟨_, rfl, rfl⟩
  | logdis =>
    cases h
    exact ⟨_, rfl, rfl⟩
  | dump start len =>
    cases (execDump_eq_recorded s start len).symm.trans h
    exact ⟨_, rfl, rfl⟩

/-- The statuses that report a condition, each exactly when one of the conditions is it (60_exceptions.md R171). -/
def StatusReports (st : Status) (cs : List Condition) : Prop :=
  (Status.code st = 1 ↔ .imageLoadError ∈ cs) ∧ (Status.code st = 2 ↔ .logSinkError ∈ cs) ∧
    (Status.code st = 3 ↔ .badCommand ∈ cs)

/-- Accesses out of range are no concern of the status (60_exceptions.md R172). -/
theorem statusReports_outOfRangeOnes (l : List Word) : StatusReports .ok (outOfRangeOnes l) := by
  have hmem : ∀ c, c ≠ .outOfRange → c ∉ outOfRangeOnes l := fun c hc h => hc (mem_outOfRangeOnes h)
  refine ⟨iff_of_false (by decide) (hmem _ ?_), iff_of_false (by decide) (hmem _ ?_),
    iff_of_false (by decide) (hmem _ ?_)⟩ <;> exact Condition.noConfusion

theorem statusReports_statusOf (i : Instr) (s : State) : StatusReports (statusOf i s) (conditionsOf i s) := by
  cases i with
  | loadimg image =>
    rw [statusOf, conditionsOf]
    unfold StatusReports
    cases imageLoadFails image s <;> decide
  | logen sinkOk =>
    rw [statusOf, conditionsOf]
    unfold StatusReports
    cases sinkOk <;> decide
  | logdis => exact statusReports_outOfRangeOnes []
  | xlate va =>
    have hstatus : statusOf (.xlate va) s = .ok := rfl
    rw [hstatus, conditionsOf]
    unfold StatusReports
    cases PageMap.maps s.pageMap va <;> decide
  | _ => exact statusReports_outOfRangeOnes _

/-! ### The inputs not yet taken play no part in what a request meets -/

theorem recordsOf_withInputs (i : Instr) (s : State) (rest : List Event) :
    recordsOf i { s with inputs := rest } = recordsOf i s := by
  cases i <;> rfl

theorem conditionsOf_withInputs (i : Instr) (s : State) (rest : List Event) :
    conditionsOf i { s with inputs := rest } = conditionsOf i s := by
  cases i <;> rfl

theorem requestConditions_of_decode {r : Request} (h : decode r = .ok i) :
    requestConditions r s = conditionsOf i s := by
  rw [requestConditions, h]

theorem requestConditions_of_reserved {r : Request} {e : Reject} (h : decode r = .error e) :
    requestConditions r s = [.badCommand] := by
  rw [requestConditions, h]

end

/-- Settles O55: an instruction's status reports its conditions and its records count them; a reserved command answers
`BAD_COMMAND` alone. -/
theorem everyConditionIsReported : Obligations.EveryConditionIsReported := by
  unfold Obligations.EveryConditionIsReported
  intro s r rest h
  cases hd : decode r with
  | error e =>
    refine ⟨_, _, [], step_of_reserved h hd, rfl, (List.append_nil _).symm, ?_⟩
    rw [requestConditions_of_reserved hd]
    exact ⟨by decide, by decide, by decide, fun _ => ⟨rfl, rfl⟩, fun _ => rfl⟩
  | ok i =>
    obtain ⟨t, ht, -⟩ := exec_completes { s with inputs := rest } i
    obtain ⟨resp, hresp, hstatus⟩ := exec_status ht
    have hlog := exec_log ht
    obtain ⟨himage, hsink, hbad⟩ := statusReports_statusOf i { s with inputs := rest }
    rw [← hstatus, conditionsOf_withInputs] at himage hsink hbad
    rw [recorded_eq_append, recordsOf_withInputs] at hlog
    rw [requestConditions_of_decode hd]
    refine ⟨t, resp, _, (step_of_request h hd).trans ht, hresp, hlog, himage, hsink, hbad, fun hon => ?_,
      fun hoff => ?_⟩
    · rw [if_pos hon]
      exact countP_recordsOf i s
    · exact if_neg (by simp [hoff])

end Sys2Proof.Machine

/-! ## Reset and the invariant (70_reset_and_hazards.md §1) -/

namespace Sys2Proof.Machine

open Vocabulary

theorem Cache.line_reset (j : BitVec 7) : Cache.reset.line j = Line.reset := by
  simp [Cache.line, Cache.reset]

theorem Line.word_reset (k : BitVec 3) : Line.reset.word k = 0 := by
  simp [Line.word, Line.reset]

theorem State.cache_reset (c : CacheSel) : State.reset.cache c = Cache.reset := by
  cases c <;> rfl

theorem State.byteAt_reset (pa : Word) : State.reset.byteAt pa = 0 := by
  unfold State.byteAt
  cases region pa <;> rfl

/-- Settles O56: the stores are empty, and every line of either instance is the reset line. -/
theorem resetStateValues : Obligations.ResetStateValues := by
  unfold Obligations.ResetStateValues
  refine ⟨State.byteAt_reset, fun c j => ?_, rfl, rfl, rfl, rfl⟩
  rw [State.cache_reset, Cache.line_reset]
  exact ⟨rfl, rfl, Line.word_reset⟩

/-- Settles O57: at reset stores, page mapping and log are empty. -/
theorem resetStateIsWellFormed : Obligations.ResetStateIsWellFormed := by
  unfold Obligations.ResetStateIsWellFormed
  decide

section
variable {s t : State} {i : Instr}

/-- A word write at an aligned address of RAM stays in RAM, and keeps the canonical form. -/
theorem memWrite_ram_wf (a v : Word) (h : Memory.wf s.ram ∧ Memory.within s.ram Config.ramBase Config.ramSize) :
    Memory.wf (s.memWrite a v).ram ∧ Memory.within (s.memWrite a v).ram Config.ramBase Config.ramSize := by
  rw [State.memWrite_eq]
  dsimp only
  split
  · next hr =>
    have hbounds := region_eq_ram.mp hr
    refine ⟨Memory.writeWord_wf _ _ _ h.1, Memory.writeWord_within _ _ _ h.2 ?_⟩
    rw [alignWord_toNat, Config.ramBase, Config.ramSize]
    omega
  · exact h

/-- The same for the scratchpad. -/
theorem memWrite_spad_wf (a v : Word) (h : Memory.wf s.spad ∧ Memory.within s.spad Config.spadBase Config.spadSize) :
    Memory.wf (s.memWrite a v).spad ∧ Memory.within (s.memWrite a v).spad Config.spadBase Config.spadSize := by
  rw [State.memWrite_eq]
  dsimp only
  split
  · next hr =>
    have hbounds := region_eq_spad.mp hr
    refine ⟨Memory.writeWord_wf _ _ _ h.1, Memory.writeWord_within _ _ _ h.2 ?_⟩
    rw [alignWord_toNat, Config.spadBase, Config.spadSize]
    omega
  · exact h

/-- An instruction keeps the invariant: the stores by their three kinds of change, the log by its records' sizes. -/
theorem exec_keeps_wf (h : exec i s = .next t) (hwf : s.wf) : t.wf := by
  obtain ⟨hram, hrom, hspad, hmap, hzero, hlog⟩ := hwf
  have hstores : (Memory.wf t.ram ∧ Memory.within t.ram Config.ramBase Config.ramSize) ∧
      Memory.wf t.spad ∧ Memory.within t.spad Config.spadBase Config.spadSize := by
    rcases exec_stores_cases h with ⟨h1, h2⟩ | ⟨a, v, -, h1, h2⟩
    · rw [h1, h2]
      exact ⟨hram, hspad⟩
    · rw [h1, h2]
      exact ⟨memWrite_ram_wf a v hram, memWrite_spad_wf a v hspad⟩
  have hromLoad : (Memory.wf t.rom ∧ Memory.within t.rom Config.romBase Config.romSize) ∧
      (t.romLoaded = false → t.rom = []) := by
    rcases exec_rom_cases h with ⟨h1, h2⟩ | ⟨b, ⟨-, -, hlen⟩, rfl⟩
    · rw [h1, h2]
      exact ⟨hrom, hzero⟩
    · rw [← hlen]
      exact ⟨⟨Memory.ofBytes_wf _ b, Memory.ofBytes_within _ b⟩, fun hf => Bool.noConfusion hf⟩
  have hrecords : ∀ r ∈ t.log, LogRecord.wellFormed r = true := by
    intro r hr
    rw [exec_log h, recorded_eq_append, List.mem_append] at hr
    rcases hr with hr | hr
    · exact hlog r hr
    · split at hr
      · exact recordsOf_wellFormed hr
      · exact absurd hr List.not_mem_nil
  exact ⟨hstores.1, hromLoad.1, hstores.2, by rwa [exec_keeps_pageMap s h], hromLoad.2, hrecords⟩

/-- A page-mapping change keeps the mapping canonical, and touches nothing else. -/
theorem mmuSetPage_keeps_wf (vpn : Vpn) (e : Option PageEntry) (hwf : s.wf) : (s.mmuSetPage vpn e).wf := by
  obtain ⟨hram, hrom, hspad, hmap, hzero, hlog⟩ := hwf
  exact ⟨hram, hrom, hspad, PageMap.update_wf _ vpn e hmap, hzero, hlog⟩

end

/-- Settles O58: an instruction and a page-mapping change keep the invariant, which speaks of no input or response. -/
theorem everyStepKeepsTheStateWellFormed : Obligations.EveryStepKeepsTheStateWellFormed := by
  unfold Obligations.EveryStepKeepsTheStateWellFormed
  intro s t hwf h
  rcases step_effect_cases h with ⟨inputs, responses, rfl⟩ | ⟨i, u, rest, inputs, hu, rfl⟩ | ⟨vpn, e, rest, rfl⟩
  · exact hwf
  · have hwfu : u.wf := exec_keeps_wf (s := { s with inputs := rest }) hu hwf
    exact hwfu
  · exact mmuSetPage_keeps_wf (s := { s with inputs := rest }) vpn e hwf

end Sys2Proof.Machine
